-- ==== Sys2Proof/Word.lean ====
section
/-! DEFINITION. The bit vectors of the ZA 12 (spec 00_scope R7, R9) and their plainest conversions. -/

namespace Sys2Proof

/-- One byte of the four-byte image of a memory word (R53). -/
abbrev Byte := BitVec 8

/-- A register value, an operand field, an address or a program counter: 12 bits (R7). -/
abbrev Word12 := BitVec 12

/-- A memory word or an instruction: 32 bits (R7). The spec's "word" is always this one (R12). -/
abbrev Word32 := BitVec 32

/-- A register's number, 0 to 9 (R20). -/
abbrev Reg := Fin 10

/-- `zext_32` (R10). -/
abbrev zext32 (v : Word12) : Word32 := v.setWidth 32

/-- `v[11:0]` of a 32-bit word (R9). -/
abbrev low12 (w : Word32) : Word12 := w.setWidth 12

end Sys2Proof
end

