-- ==== Sys2Proof/Syntax.lean ====
section
/-! DEFINITION. The instructions of the ZA 12: one constructor for each of the 32 rows of the opcode map (spec
30_encoding R87). An argument is the 12-bit operand field as it stands in the word, named after its use (R86): a
field that numbers a register may hold 10 to 4095 too, and the machine then raises InvalidRegister (R91). A field
the instruction does not use (R92) is no argument. First operand field first. -/

namespace Sys2Proof

inductive Instr where
  /-- R122 -/
  | nop
  /-- R123: value, destination register -/
  | seti (imm dst : Word12)
  /-- R124: source register, destination register -/
  | set (src dst : Word12)
  /-- R125: addend, register -/
  | addi (imm dst : Word12)
  /-- R126: register of the addend, register -/
  | add (src dst : Word12)
  /-- R127: multiplier, register -/
  | muli (imm dst : Word12)
  /-- R128: register of the multiplier, register -/
  | mul (src dst : Word12)
  /-- R129: subtrahend, register -/
  | subi (imm dst : Word12)
  /-- R130: register of the subtrahend, register -/
  | sub (src dst : Word12)
  /-- R131: shift amount, register -/
  | sli (imm dst : Word12)
  /-- R132: register of the shift amount, register -/
  | sl (src dst : Word12)
  /-- R133: shift amount, register -/
  | sri (imm dst : Word12)
  /-- R134: register of the shift amount, register -/
  | sr (src dst : Word12)
  /-- R135: mask, register -/
  | andi (imm dst : Word12)
  /-- R136: register of the mask, register -/
  | and (src dst : Word12)
  /-- R137: mask, register -/
  | ori (imm dst : Word12)
  /-- R138: register of the mask, register -/
  | or (src dst : Word12)
  /-- R139: register -/
  | not (dst : Word12)
  /-- R192: virtual function index -/
  | mswti (index : Word12)
  /-- R193: register holding the index -/
  | mswt (src : Word12)
  /-- R152: target -/
  | jmpi (target : Word12)
  /-- R153: register holding the target -/
  | jmp (src : Word12)
  /-- R154: target, tested register -/
  | zjmpi (target tested : Word12)
  /-- R155: register holding the target, tested register -/
  | zjmp (src tested : Word12)
  /-- R156: target, compared register -/
  | ljmpi (target tested : Word12)
  /-- R157: register holding the target, compared register -/
  | ljmp (src tested : Word12)
  /-- R158: target, compared register -/
  | gjmpi (target tested : Word12)
  /-- R159: register holding the target, compared register -/
  | gjmp (src tested : Word12)
  /-- R172: RAM address, destination register -/
  | loadi (addr dst : Word12)
  /-- R173: register holding the RAM address, destination register -/
  | load (src dst : Word12)
  /-- R174: value, RAM address -/
  | storei (value addr : Word12)
  /-- R175: register of the value, RAM address -/
  | store (src addr : Word12)
  deriving DecidableEq, Repr

end Sys2Proof
end

