-- ==== Sys2Proof/WellFormed.lean ====
section
/-! DEFINITION. An instruction is well formed when every field that numbers a register names one of the ten
registers (spec 30_encoding R86, R91). The machine has a meaning for the ill-formed ones too: the fault
InvalidRegister. -/

namespace Sys2Proof

/-- A register number names a register when it is 0 to 9 (R91). -/
def namesReg (n : Word12) : Bool := decide (n.toNat < 10)

/-- The register-number cells of the table of R86. -/
def Instr.regFields : Instr → List Word12
  | .nop => []
  | .seti _ dst => [dst]
  | .set src dst => [src, dst]
  | .addi _ dst => [dst]
  | .add src dst => [src, dst]
  | .muli _ dst => [dst]
  | .mul src dst => [src, dst]
  | .subi _ dst => [dst]
  | .sub src dst => [src, dst]
  | .sli _ dst => [dst]
  | .sl src dst => [src, dst]
  | .sri _ dst => [dst]
  | .sr src dst => [src, dst]
  | .andi _ dst => [dst]
  | .and src dst => [src, dst]
  | .ori _ dst => [dst]
  | .or src dst => [src, dst]
  | .not dst => [dst]
  | .mswti _ => []
  | .mswt src => [src]
  | .jmpi _ => []
  | .jmp src => [src]
  | .zjmpi _ tested => [tested]
  | .zjmp src tested => [src, tested]
  | .ljmpi _ tested => [tested]
  | .ljmp src tested => [src, tested]
  | .gjmpi _ tested => [tested]
  | .gjmp src tested => [src, tested]
  | .loadi _ dst => [dst]
  | .load src dst => [src, dst]
  | .storei _ _ => []
  | .store src _ => [src]

/-- Every register field names a register (R91). -/
def Instr.wellFormed (i : Instr) : Bool := i.regFields.all namesReg

end Sys2Proof
end

