-- ==== Sys2Proof/Decode.lean ====
section
/-! DEFINITION. The 32-bit word and its fields, the opcode map read in both directions (spec 30_encoding R80 to R93),
and the four-byte image of a word (20_memory R53, R54). -/

namespace Sys2Proof

/-! ## The field layout: the one place that knows bit positions (R81, D1) -/

/-- `opc = insn[3:0]`. -/
def opcOf (w : Word32) : BitVec 4 := w.extractLsb' 0 4

/-- `flg = insn[7:4]` (R83: bit 0 register form, bit 1 extended set, bits 2 and 3 reserved). -/
def flgOf (w : Word32) : BitVec 4 := w.extractLsb' 4 4

/-- `F = insn[19:8]`, the first operand field. -/
def firstOf (w : Word32) : Word12 := w.extractLsb' 8 12

/-- `S = insn[31:20]`, the second operand field. -/
def secondOf (w : Word32) : Word12 := w.extractLsb' 20 12

/-- `insn = S ++ F ++ flg ++ opc`. -/
def packWord (opc flg : BitVec 4) (first second : Word12) : Word32 := second ++ first ++ flg ++ opc

/-- The selector `sel = flg ++ opc` (R82). -/
def selOf (w : Word32) : Byte := flgOf w ++ opcOf w

/-- A word from its selector and its operand fields. -/
def packSel (sel : Byte) (first second : Word12) : Word32 :=
  packWord (sel.extractLsb' 0 4) (sel.extractLsb' 4 4) first second

/-! ## The four-byte image (R53, D15) -/

/-- A word as four bytes, the most significant first. -/
def wordBytes (w : Word32) : List Byte :=
  [w.extractLsb' 24 8, w.extractLsb' 16 8, w.extractLsb' 8 8, w.extractLsb' 0 8]

/-- The word whose image is these four bytes. -/
def wordOfBytes (b0 b1 b2 b3 : Byte) : Word32 := b0 ++ b1 ++ b2 ++ b3

/-! ## Decoding -/

/-- Why bytes are no instruction. -/
inductive DecodeError where
  /-- The selector is none of the 32 legal ones (R88, R89). -/
  | illegalInstruction (insn : Word32)
  /-- Fewer than the four bytes every instruction has (R80). -/
  | truncated
  deriving DecidableEq, Repr

/-- The opcode map (R87): the row of a selector, its operands taken from the fields as R86 says. All eight bits of
the selector take part, the operand fields never do (R88). -/
def decodeWord (w : Word32) : Option Instr :=
  match selOf w with
  | 0x00#8 => some .nop
  | 0x01#8 => some (.seti (firstOf w) (secondOf w))
  | 0x11#8 => some (.set (firstOf w) (secondOf w))
  | 0x02#8 => some (.addi (firstOf w) (secondOf w))
  | 0x12#8 => some (.add (firstOf w) (secondOf w))
  | 0x03#8 => some (.muli (firstOf w) (secondOf w))
  | 0x13#8 => some (.mul (firstOf w) (secondOf w))
  | 0x04#8 => some (.subi (firstOf w) (secondOf w))
  | 0x14#8 => some (.sub (firstOf w) (secondOf w))
  | 0x05#8 => some (.sli (firstOf w) (secondOf w))
  | 0x15#8 => some (.sl (firstOf w) (secondOf w))
  | 0x06#8 => some (.sri (firstOf w) (secondOf w))
  | 0x16#8 => some (.sr (firstOf w) (secondOf w))
  | 0x07#8 => some (.andi (firstOf w) (secondOf w))
  | 0x17#8 => some (.and (firstOf w) (secondOf w))
  | 0x08#8 => some (.ori (firstOf w) (secondOf w))
  | 0x18#8 => some (.or (firstOf w) (secondOf w))
  | 0x09#8 => some (.not (secondOf w))
  | 0x0A#8 => some (.mswti (firstOf w))
  | 0x1A#8 => some (.mswt (firstOf w))
  | 0x0C#8 => some (.jmpi (firstOf w))
  | 0x1C#8 => some (.jmp (firstOf w))
  | 0x0D#8 => some (.zjmpi (firstOf w) (secondOf w))
  | 0x1D#8 => some (.zjmp (firstOf w) (secondOf w))
  | 0x0E#8 => some (.ljmpi (firstOf w) (secondOf w))
  | 0x1E#8 => some (.ljmp (firstOf w) (secondOf w))
  | 0x0F#8 => some (.gjmpi (firstOf w) (secondOf w))
  | 0x1F#8 => some (.gjmp (firstOf w) (secondOf w))
  | 0x20#8 => some (.loadi (firstOf w) (secondOf w))
  | 0x30#8 => some (.load (firstOf w) (secondOf w))
  | 0x21#8 => some (.storei (firstOf w) (secondOf w))
  | 0x31#8 => some (.store (firstOf w) (secondOf w))
  | _ => none

/-- Decoding any bytes: the instruction of the first four, and the bytes after them. -/
def decode : List Byte → Except DecodeError (Instr × List Byte)
  | b0 :: b1 :: b2 :: b3 :: rest =>
    match decodeWord (wordOfBytes b0 b1 b2 b3) with
    | some i => .ok (i, rest)
    | none => .error (.illegalInstruction (wordOfBytes b0 b1 b2 b3))
  | _ => .error .truncated

/-! ## Encoding, from the same table (R86, R87) -/

/-- The selector of an instruction's row. -/
def Instr.selector : Instr → Byte
  | .nop => 0x00
  | .seti _ _ => 0x01
  | .set _ _ => 0x11
  | .addi _ _ => 0x02
  | .add _ _ => 0x12
  | .muli _ _ => 0x03
  | .mul _ _ => 0x13
  | .subi _ _ => 0x04
  | .sub _ _ => 0x14
  | .sli _ _ => 0x05
  | .sl _ _ => 0x15
  | .sri _ _ => 0x06
  | .sr _ _ => 0x16
  | .andi _ _ => 0x07
  | .and _ _ => 0x17
  | .ori _ _ => 0x08
  | .or _ _ => 0x18
  | .not _ => 0x09
  | .mswti _ => 0x0A
  | .mswt _ => 0x1A
  | .jmpi _ => 0x0C
  | .jmp _ => 0x1C
  | .zjmpi _ _ => 0x0D
  | .zjmp _ _ => 0x1D
  | .ljmpi _ _ => 0x0E
  | .ljmp _ _ => 0x1E
  | .gjmpi _ _ => 0x0F
  | .gjmp _ _ => 0x1F
  | .loadi _ _ => 0x20
  | .load _ _ => 0x30
  | .storei _ _ => 0x21
  | .store _ _ => 0x31

/-- The operand fields `(F, S)` of an instruction; a field it does not use is zero, as the assembler is taken to
emit it (R92). -/
def Instr.fields : Instr → Word12 × Word12
  | .nop => (0, 0)
  | .seti f s | .set f s | .addi f s | .add f s | .muli f s | .mul f s | .subi f s | .sub f s
  | .sli f s | .sl f s | .sri f s | .sr f s | .andi f s | .and f s | .ori f s | .or f s => (f, s)
  | .not s => (0, s)
  | .mswti f | .mswt f | .jmpi f | .jmp f => (f, 0)
  | .zjmpi f s | .zjmp f s | .ljmpi f s | .ljmp f s | .gjmpi f s | .gjmp f s => (f, s)
  | .loadi f s | .load f s | .storei f s | .store f s => (f, s)

/-- The 32-bit word of an instruction (R81, R86, R87). -/
def encodeWord (i : Instr) : Word32 := packSel i.selector i.fields.1 i.fields.2

/-- The four-byte image of an instruction (R54). -/
def encode (i : Instr) : List Byte := wordBytes (encodeWord i)

/-- The instruction the decoder reads from the word whose low `nbits` bits are `w`'s and whose other bits are 0, laid
out as its four-byte image. -/
def decodeTableWord (nbits w : Nat) : Option Instr :=
  match decode (wordBytes (BitVec.ofNat 32 (w % 2 ^ nbits))) with
  | .ok (i, _) => some i
  | .error _ => none

end Sys2Proof
end

