-- ==== Sys2Proof/Config.lean ====
section
/-! DEFINITION. What an implementation fixes (spec 00_scope R8) and the free values. A parameter of kind
"argument", or one the spec offers a model a choice in, is a field of `Params`, which State carries unchanged; a value
the spec leaves open is an opaque constant, of which nothing can be proved but that it is a value. -/

namespace Sys2Proof

/-- `HAZARD_POLICY` (R8): the spec's choice R258 and the alternative it lets a model take, R260. -/
inductive HazardPolicy where
  /-- R258: a RAM instruction in any RAM shadow is a violation. -/
  | strict
  /-- R260: among RAM instructions only a load in the shadow of a store to the same address is. -/
  | dependencyOnly
  deriving DecidableEq, Repr

/-- The parameters of one part (R8), constant during a run (R13). -/
structure Params where
  /-- `DEBUG_PROTOTYPE`: whether the virtual function `hlt` is enabled (R8, R194, D18). -/
  debugPrototype : Bool
  /-- `HAZARD_POLICY` (R8, R258, R260, D21). -/
  hazardPolicy : HazardPolicy
  /-- `RAM_INIT` (R8, R38), an argument: the words a claim takes as given, as a memory (each byte by its key). A byte
  not listed here is left to the opaque `Config.ramInit`. -/
  ramInit : List Host.Cell
  deriving DecidableEq, Repr

/-- The parameters at reset: a debug prototype, as the test vectors of 95_test_vectors take it, `HAZARD_POLICY`
strict (R258), and nothing known of `RAM_INIT` (R38). DESIGN CHOICE, log entries 3, 6 and 7. -/
def Config.params : Params :=
  { debugPrototype := true, hazardPolicy := .strict, ramInit := [] }

/-- `REG_RESET` (R8): the data each register's field has at reset, when it holds no value of the spec's (R37): no
instruction reads it, and nothing of it can be proved. DESIGN CHOICE, log entry 1. -/
opaque Config.regReset : Reg → Word12

/-- The words of `RAM_INIT` that no argument gives (R8, R38). Free value, log entry 3. -/
opaque Config.ramInit : Word12 → Word32

/-- `UROM` outside the program image (R39, R253, D25). Free value, safe, log entry 4. -/
opaque Config.uromInit : Word12 → Word32

/-- The n-th free 12-bit value a run draws (R37, R196). Free value, log entry 8. -/
opaque Config.freeValue : Nat → Word12

/-- `DIV_CLOBBERS` (R8, R196, D19). -/
def Config.divClobbers : List Reg := [1, 3, 4, 5, 6, 7, 8]

end Sys2Proof
end

