-- ==== Sys2Proof/Machine/State.lean ====
section
/-! DEFINITION. The state of the ZA 12 as plain data (spec 10_state), the reasons a step can stop
(60_exceptions R222), and the state after reset (R36 to R41, R250). -/

namespace Sys2Proof.Machine

/-- A memory: its listed bytes, by rising byte key. Word address `a` is the keys `4 * a` to `4 * a + 3`, the most
significant byte first (R53). Log entry 2. -/
abbrev Memory := List Host.Cell

/-- One RAM operation as the shadow record keeps it (R35): its kind, destination register (load), operand register
(the address register of a `load`, the value register of a `store`, none for `loadi` and `storei`) and address. -/
inductive RamOp where
  | load (dest : Reg) (operand : Option Reg) (addr : Word12)
  | store (operand : Option Reg) (addr : Word12)
  deriving DecidableEq, Repr

/-- The shadow record (R35): for each of the last two executed slots, the RAM operation it was, if it was one. -/
structure Shadow where
  /-- the slot just before (age 1) -/
  last : Option RamOp
  /-- the slot before that (age 2) -/
  beforeLast : Option RamOp
  deriving DecidableEq, Repr

/-- Why a step stops. The spec's faults (R222) are terminal and write nothing (R221); none is an event of the
hardware. Its code 4 is not among them: a read of a register that holds no value stops nothing, it gives a free value
(R37, D5, U11), and `unwrittenRead` says where that happens and with which payload. Log entry 1. -/
inductive Fault where
  /-- Raised by the fetch of a word whose selector is not one of the 32 legal values (R88, R89, code 1). Safe. -/
  | illegalInstruction (pc : Word12) (insn : Word32)
  /-- Raised by every instruction with a register-number field that holds 10 or more (R91, code 2). Safe. -/
  | invalidRegister (pc : Word12) (field : Word12)
  /-- Raised by every instruction but `nop` and `jmpi` when it does in a RAM shadow what R258 (or, under the other
  policy, R260) forbids (code 3); carries the earlier operation. Safe. -/
  | hazardViolation (pc : Word12) (earlier : RamOp)
  /-- Raised by `mswti` and `mswt` for an index of 2 or more (R198, code 5). Safe. -/
  | undefinedVirtualFunction (pc : Word12) (index : Word12)
  /-- Raised by `mswti` and `mswt` for index 0 when the part is no debug prototype (R194, code 6). Safe. -/
  | hltDisabled (pc : Word12)
  /-- The outcome `hang` (R11), no fault of the spec: `mswti` and `mswt` when `div` divides by zero; the step never
  completes (R197). Safe. Log entry 9. -/
  | hang (pc : Word12)
  deriving DecidableEq, Repr

/-- Refusals of the model. -/
inductive Refusal where
  /-- An arm of `exec` whose instruction has no meaning yet: no arm answers it. Safe. -/
  | notModelled (mnemonic : String)
  deriving DecidableEq, Repr

/-- The whole machine. -/
structure State where
  /-- `x[0]` to `x[9]` (R20): eight general registers, the compare register 8, the return value register 9. -/
  regs : Vector Word12 10
  /-- For each register, whether it holds a value: an instruction has written it since reset, and no `div` has made it
  unspecified since (R37, R196). -/
  written : Vector Bool 10
  /-- The program counter, a word address of the user ROM (R27). -/
  pc : Word12
  /-- The RAM (R32, R50). -/
  ram : Memory
  /-- The user ROM (R32, R39); written by nothing at run time. -/
  urom : Memory
  /-- Set by `hlt`, never cleared (R34, R194). -/
  halted : Bool
  /-- The fault mark: the fault that was raised (R34, R221). -/
  faultMark : Option Fault
  /-- The shadow record (R35). -/
  shadow : Shadow
  /-- The parameters of R8 that are arguments or offered as choices; constant. -/
  params : Params
  /-- THE MODEL'S OWN: how many free values have been drawn. Log entry 8. -/
  freeCount : Nat
  deriving DecidableEq, Repr

/-- What one step answers. -/
abbrev Result := Host.Outcome State Fault Refusal

/-- The machine right after reset (R36 to R41, R250). No register holds a value of the spec's (R37): log entry 1; the
parameters: log entries 1, 3, 6 and 7; the free values' counter: log entry 8. -/
def State.reset : State where
  regs := #v[Config.regReset 0, Config.regReset 1, Config.regReset 2, Config.regReset 3, Config.regReset 4,
    Config.regReset 5, Config.regReset 6, Config.regReset 7, Config.regReset 8, Config.regReset 9]
  written := Vector.replicate 10 false
  pc := 0x000
  ram := []
  urom := []
  halted := false
  faultMark := none
  shadow := { last := none, beforeLast := none }
  params := Config.params
  freeCount := 0

end Sys2Proof.Machine
end

