-- ==== Sys2Proof/Machine/Memory.lean ====
section
/-! DEFINITION. A memory of 4096 words of 32 bits (spec 10_state R32, 20_memory R50 to R58) as the list of the bytes
that have been listed, in one canonical form: rising keys, each below 16384. An unlisted byte holds what `blank` says
(RAM_INIT for the RAM, R38; the words outside the image for the user ROM, R39). Log entries 2, 3 and 4. -/

namespace Sys2Proof.Machine

/-- The byte listed at a key, if one is. -/
def Memory.find : Memory → Nat → Option Byte
  | [], _ => none
  | (k, v) :: m, key => if k = key then some v else Memory.find m key

/-- List a byte at a key, in its place. -/
def Memory.put : Memory → Nat → Byte → Memory
  | [], key, b => [(key, b)]
  | (k, v) :: m, key, b =>
    if key < k then (key, b) :: (k, v) :: m
    else if key = k then (key, b) :: m
    else (k, v) :: Memory.put m key b

/-- The keys rise strictly, from `low` on. -/
def Memory.rising : Nat → Memory → Bool
  | _, [] => true
  | low, (k, _) :: m => decide (low ≤ k) && Memory.rising (k + 1) m

/-- The canonical form: strictly rising keys, all of them bytes of one of the 4096 words. -/
def Memory.wf (m : Memory) : Bool := Memory.rising 0 m && m.all fun c => decide (c.1 < 4 * 4096)

/-- The key of byte `i` of the word at address `a`. -/
def byteKey (a : Word12) (i : Nat) : Nat := 4 * a.toNat + i

/-- The byte at a key: the listed one, else that of `blank`'s word there, the most significant byte first. -/
def Memory.byteAt (blank : Word12 → Word32) (m : Memory) (key : Nat) : Byte :=
  (Memory.find m key).getD ((blank (BitVec.ofNat 12 (key / 4))).extractLsb' (24 - 8 * (key % 4)) 8)

/-- The four-byte image of the word at an address. -/
def Memory.imageAt (blank : Word12 → Word32) (m : Memory) (a : Word12) : List Byte :=
  [Memory.byteAt blank m (byteKey a 0), Memory.byteAt blank m (byteKey a 1),
   Memory.byteAt blank m (byteKey a 2), Memory.byteAt blank m (byteKey a 3)]

/-- The word at an address (R51, R53). -/
def Memory.wordAt (blank : Word12 → Word32) (m : Memory) (a : Word12) : Word32 :=
  wordOfBytes (Memory.byteAt blank m (byteKey a 0)) (Memory.byteAt blank m (byteKey a 1))
    (Memory.byteAt blank m (byteKey a 2)) (Memory.byteAt blank m (byteKey a 3))

/-- Write the whole word at an address (R57: no partial write). -/
def Memory.putWord (m : Memory) (a : Word12) (w : Word32) : Memory :=
  Memory.put (Memory.put (Memory.put (Memory.put m
    (byteKey a 0) (w.extractLsb' 24 8)) (byteKey a 1) (w.extractLsb' 16 8))
    (byteKey a 2) (w.extractLsb' 8 8)) (byteKey a 3) (w.extractLsb' 0 8)

/-- Write words at rising addresses from `a` on, modulo 4096. -/
def Memory.putWords : Memory → Word12 → List Word32 → Memory
  | m, _, [] => m
  | m, a, w :: ws => Memory.putWords (Memory.putWord m a w) (a + 1) ws

end Sys2Proof.Machine
end

