-- ==== Sys2Proof/Machine/Ops.lean ====
section
/-! DEFINITION. The named operations on the machine: registers, RAM, user ROM, the end of a slot, raising a fault
(spec 60_exceptions R221), the RAM shadow (70_reset_and_hazards R257 to R260), the reads of registers (10_state R37),
drawing a free value, fetch, placing a program. The hardware takes no exception and has no return from one (R220, R226,
R227), so there is no operation for either; the stand-in is `raise`. -/

namespace Sys2Proof.Machine

/-! ## Registers (R20, R22: none is hardwired) -/

/-- What the field of `x[r]` has: its value, if it holds one. -/
def State.reg (s : State) (r : Reg) : Word12 := s.regs[r]

/-- Whether `x[r]` holds a value (R37). -/
def State.isWritten (s : State) (r : Reg) : Bool := s.written[r]

/-- `x[r] <- v`. -/
def State.setReg (s : State) (r : Reg) (v : Word12) : State :=
  { s with regs := s.regs.set r v, written := s.written.set r true }

/-- The compare register's number, `@cmp` (R24, R103). -/
def cmpReg : Reg := 8

/-- The return value register's number, `@ret` (R25, R103). -/
def retReg : Reg := 9

/-! ## RAM and user ROM -/

/-- `RAM_INIT[a]` (R8, R38): the word the parameters give, its bytes free values where they give none. -/
def ramInitWord (p : Params) (a : Word12) : Word32 := Memory.wordAt Config.ramInit p.ramInit a

/-- The byte of the RAM at a byte key (log entry 2): what a store has written, else RAM_INIT's (R38). -/
def State.ramByte (s : State) (key : Nat) : Byte := Memory.byteAt (ramInitWord s.params) s.ram key

/-- `RAM[a]` (R10). -/
def State.ramWord (s : State) (a : Word12) : Word32 := Memory.wordAt (ramInitWord s.params) s.ram a

/-- `UROM[a]` (R10). -/
def State.uromWord (s : State) (a : Word12) : Word32 := Memory.wordAt Config.uromInit s.urom a

/-- `MemRead(a, 12)`: the low 12 bits of the word (R56). -/
def State.memRead (s : State) (a : Word12) : Word12 := low12 (s.ramWord a)

/-- `MemWrite(a, 12, v)`: the whole word, zero-extended (R57). -/
def State.memWrite (s : State) (a : Word12) (v : Word12) : State :=
  { s with ram := Memory.putWord s.ram a (zext32 v) }

/-- Put one word into the user ROM: a loader's act, no instruction's (R50). -/
def State.placeUrom (s : State) (a : Word12) (w : Word32) : State :=
  { s with urom := Memory.putWord s.urom a w }

/-- A program's words laid out in the user ROM from address 0 (R105, R253). -/
def State.loadProgram (s : State) (image : List Word32) : State :=
  { s with urom := Memory.putWords s.urom 0 image }

/-- The launch state (R236, R250) of a part with given parameters, DEBUG_PROTOTYPE and RAM_INIT among them, and a given
program. -/
def State.launch (params : Params) (image : List Word32) : State :=
  { State.reset with params := params }.loadProgram image

/-! ## The end of a slot -/

/-- The slot is over: it was the RAM operation `op`, if any (R35, R257), and the next instruction is at `next`. -/
def State.retire (s : State) (op : Option RamOp) (next : Word12) : State :=
  { s with pc := next, shadow := { last := op, beforeLast := s.shadow.last } }

/-- The slot is over, it was no RAM operation, and the pc advances by one word, modulo 4096 (R28, R29). -/
def State.advancePc (s : State) : State := s.retire none (s.pc + 1)

/-- The slot is over and it was the RAM operation `op` (R170). -/
def State.advanceRam (s : State) (op : RamOp) : State := s.retire (some op) (s.pc + 1)

/-! ## Faults -/

/-- `raise`: the step stops and writes nothing (R10, R221). -/
def raise (f : Fault) : Result := .fault f

/-! ## The RAM shadow -/

/-- What a RAM instruction does to the RAM, and where. -/
inductive Access where
  | load (addr : Word12)
  | store (addr : Word12)
  deriving DecidableEq, Repr

/-- What an instruction touches, explicitly or implicitly (R23): the registers it reads and writes, and its RAM
access if it is a RAM instruction. -/
structure Uses where
  /-- in the order of the reads (R223) -/
  reads : List Reg
  writes : List Reg
  access : Option Access
  deriving DecidableEq, Repr

/-- The destination register of a load (R35). -/
def RamOp.dest : RamOp → Option Reg
  | .load d _ _ => some d
  | .store _ _ => none

/-- The operand register: the address register of a `load`, the value register of a `store` (R258). -/
def RamOp.operand : RamOp → Option Reg
  | .load _ o _ => o
  | .store o _ => o

/-- Clause (c) of R258, and what R260 keeps of it: whether a RAM access may not follow `op` in its shadow. -/
def accessConflicts (policy : HazardPolicy) (access : Access) (op : RamOp) : Bool :=
  match policy, access, op with
  | .strict, _, _ => true
  | .dependencyOnly, .load a, .store _ b => decide (a = b)
  | .dependencyOnly, .load _, .load _ _ _ => false
  | .dependencyOnly, .store _, _ => false

/-- Whether an instruction that touches `u` violates the shadow of `op` (R258): it reads (a) or writes (b) the
load's destination, is a RAM instruction (c), or writes the operand register (d, and the store clause). -/
def Uses.conflicts (policy : HazardPolicy) (u : Uses) (op : RamOp) : Bool :=
  op.dest.any (fun d => u.reads.contains d || u.writes.contains d)
    || op.operand.any u.writes.contains
    || u.access.any (accessConflicts policy · op)

/-- The operation whose shadow the instruction violates, if any: of the last two slots, the newer first
(log entry 11). -/
def State.violated (s : State) (u : Uses) : Option RamOp :=
  (s.shadow.last.filter (u.conflicts s.params.hazardPolicy)).or
    (s.shadow.beforeLast.filter (u.conflicts s.params.hazardPolicy))

/-! ## Reading registers (R37, R120 step 4) -/

/-- How many of the reads, in order, are of registers that hold no value. -/
def State.drawn (s : State) (reads : List Reg) : Nat := reads.countP fun r => !s.isWritten r

/-- What reading `x[r]` gives, when the instruction has read `before`: the register's value, or, if it holds none, the
next free value, another one for each such read (R37, D5). -/
def State.value (s : State) (before : List Reg) (r : Reg) : Word12 :=
  if s.isWritten r then s.reg r else Config.freeValue (s.freeCount + s.drawn before)

/-- The state after the reads: the free values they gave are drawn. -/
def State.afterReads (s : State) (reads : List Reg) : State := { s with freeCount := s.freeCount + s.drawn reads }

/-- The shadow check and the reads of every instruction template (R120, R150 and R170, steps 3 and 4): HazardViolation,
else `go` with the free values of the reads drawn. -/
def State.guarded (s : State) (u : Uses) (go : State → Result) : Result :=
  match s.violated u with
  | some op => raise (.hazardViolation s.pc op)
  | none => go (s.afterReads u.reads)

/-! ## Free values -/

/-- `x[r] <- unspecified` (R196): it holds no value, and its field has the next free value. -/
def State.drawReg (s : State) (r : Reg) : State :=
  { s with
    regs := s.regs.set r (Config.freeValue s.freeCount)
    written := s.written.set r false
    freeCount := s.freeCount + 1 }

/-- Make several registers unspecified, in order. -/
def State.drawRegs : List Reg → State → State
  | [], s => s
  | r :: rs, s => State.drawRegs rs (s.drawReg r)

/-! ## Fetch -/

/-- The instruction at the pc, or IllegalInstruction (R88): the image of `UROM[pc]`, decoded. The image is four
bytes, so the decoder's `truncated` does not arise; it would be reported the same way. -/
def State.fetch (s : State) : Except Fault Instr :=
  match decode (Memory.imageAt Config.uromInit s.urom s.pc) with
  | .ok (i, _) => .ok i
  | .error _ => .error (.illegalInstruction s.pc (s.uromWord s.pc))

end Sys2Proof.Machine
end

