-- ==== Sys2Proof/Machine/Operands.lean ====
section
/-! DEFINITION. The operand forms (spec 30_encoding R84 to R86, 42_load_store R171). An immediate field is its value
as it stands, with no extension or scaling (R84), and a store's address field is the address (R85), so only the
register form needs an operation. -/

namespace Sys2Proof.Machine

/-- The register a field numbers, if it is 0 to 9 (R91). -/
def regOf (n : Word12) : Option Reg :=
  if h : n.toNat < 10 then some ⟨n.toNat, h⟩ else none

/-- `reg(n)`: go on with the register, or `raise InvalidRegister(n)` (R10, R91). -/
def State.withReg (s : State) (n : Word12) (go : Reg → Result) : Result :=
  match regOf n with
  | some r => go r
  | none => raise (.invalidRegister s.pc n)

end Sys2Proof.Machine
end

