-- ==== Sys2Proof/Machine/Flags.lean ====
section
/-! DEFINITION. The machine has no flags and no condition codes (spec 10_state R30): this file holds the conditions
the jumps test directly on registers (41_jumps R154 to R159). Comparison is unsigned (R8 CMP_SIGNED, D10). -/

namespace Sys2Proof.Machine

/-- The condition of `zjmpi` and `zjmp`: all 12 bits are zero (R154). -/
def isZero (v : Word12) : Bool := decide (v = 0x000)

/-- The condition of `ljmpi` and `ljmp`: strictly less, unsigned (R156). -/
def isLess (v c : Word12) : Bool := decide (v.toNat < c.toNat)

/-- The condition of `gjmpi` and `gjmp`: strictly greater, unsigned (R158). -/
def isGreater (v c : Word12) : Bool := decide (v.toNat > c.toNat)

end Sys2Proof.Machine
end

