-- ==== Sys2Proof/Machine/Alu.lean ====
section
/-! DEFINITION. `nop`, the moves and the ALU instructions (spec 40_basic_alu R120 to R139). -/

namespace Sys2Proof.Machine

/-! ## Results (R121: modulo 4096; shifts are logical; no flag) -/

def addResult (b a : Word12) : Word12 := b + a
def mulResult (b a : Word12) : Word12 := b * a

/-- Second operand minus first (R129, R130, D8). -/
def subResult (b a : Word12) : Word12 := b - a

/-- The whole amount counts; 12 or more gives 0 (R131, D9). -/
def slResult (b n : Word12) : Word12 :=
  if 12 ≤ n.toNat then 0x000 else BitVec.ofNat 12 (b.toNat * 2 ^ n.toNat)

/-- Logical, zeros enter at bit 11; 12 or more gives 0 (R133, D9). -/
def srResult (b n : Word12) : Word12 :=
  if 12 ≤ n.toNat then 0x000 else BitVec.ofNat 12 (b.toNat / 2 ^ n.toNat)

def andResult (b a : Word12) : Word12 := b &&& a
def orResult (b a : Word12) : Word12 := b ||| a

/-- The one's complement (R139). -/
def notResult (b : Word12) : Word12 := b ^^^ 0xFFF

/-! ## The template of R120 -/

/-- Steps 6 and 7: write the destination, advance the pc. -/
def State.writeBack (s : State) (d : Reg) (v : Word12) : State := (s.setReg d v).advancePc

/-- An immediate and a register that is source and destination. -/
def aluImm (op : Word12 → Word12 → Word12) (imm dst : Word12) (s : State) : Result :=
  s.withReg dst fun d =>
    s.guarded { reads := [d], writes := [d], access := none } fun s' =>
      .next (s'.writeBack d (op (s.value [] d) imm))

/-- A source register and a register that is source and destination; the first field is checked first (R223). -/
def aluReg (op : Word12 → Word12 → Word12) (src dst : Word12) (s : State) : Result :=
  s.withReg src fun r => s.withReg dst fun d =>
    s.guarded { reads := [r, d], writes := [d], access := none } fun s' =>
      .next (s'.writeBack d (op (s.value [r] d) (s.value [] r)))

/-! ## The instructions -/

/-- R122. Reads and writes no register, so no shadow concerns it. -/
def execNop (s : State) : Result := .next s.advancePc

/-- R123. It reads no register. -/
def execSeti (imm dst : Word12) (s : State) : Result :=
  s.withReg dst fun d =>
    s.guarded { reads := [], writes := [d], access := none } fun s' => .next (s'.writeBack d imm)

/-- R124. -/
def execSet (src dst : Word12) (s : State) : Result :=
  s.withReg src fun r => s.withReg dst fun d =>
    s.guarded { reads := [r], writes := [d], access := none } fun s' => .next (s'.writeBack d (s.value [] r))

/-- R125. -/
def execAddi (imm dst : Word12) (s : State) : Result := aluImm addResult imm dst s

/-- R126. -/
def execAdd (src dst : Word12) (s : State) : Result := aluReg addResult src dst s

/-- R127. -/
def execMuli (imm dst : Word12) (s : State) : Result := aluImm mulResult imm dst s

/-- R128. -/
def execMul (src dst : Word12) (s : State) : Result := aluReg mulResult src dst s

/-- R129. -/
def execSubi (imm dst : Word12) (s : State) : Result := aluImm subResult imm dst s

/-- R130. -/
def execSub (src dst : Word12) (s : State) : Result := aluReg subResult src dst s

/-- R131. -/
def execSli (imm dst : Word12) (s : State) : Result := aluImm slResult imm dst s

/-- R132. -/
def execSl (src dst : Word12) (s : State) : Result := aluReg slResult src dst s

/-- R133. -/
def execSri (imm dst : Word12) (s : State) : Result := aluImm srResult imm dst s

/-- R134. -/
def execSr (src dst : Word12) (s : State) : Result := aluReg srResult src dst s

/-- R135. -/
def execAndi (imm dst : Word12) (s : State) : Result := aluImm andResult imm dst s

/-- R136. -/
def execAnd (src dst : Word12) (s : State) : Result := aluReg andResult src dst s

/-- R137. -/
def execOri (imm dst : Word12) (s : State) : Result := aluImm orResult imm dst s

/-- R138. -/
def execOr (src dst : Word12) (s : State) : Result := aluReg orResult src dst s

/-- R139. -/
def execNot (dst : Word12) (s : State) : Result :=
  s.withReg dst fun d =>
    s.guarded { reads := [d], writes := [d], access := none } fun s' =>
      .next (s'.writeBack d (notResult (s.value [] d)))

end Sys2Proof.Machine
end

