-- ==== Sys2Proof/Machine/Jumps.lean ====
section
/-! DEFINITION. The eight jumps (spec 41_jumps R150 to R159): absolute targets, no delay slot, no saved pc. The target
register is checked whether or not the jump is taken (R150, D28). -/

namespace Sys2Proof.Machine

/-- Step 6 of R150: to the target if taken, else to the next word. -/
def State.branch (s : State) (taken : Bool) (target : Word12) : State :=
  s.retire none (if taken then target else s.pc + 1)

/-- A condition on a state, given the registers that have been read before and the tested one. -/
abbrev Condition := State → List Reg → Reg → Bool

/-- A conditional jump to an immediate target; `implicit` are the registers it reads besides the tested one. -/
def jumpImm (cond : Condition) (implicit : List Reg) (target tested : Word12) (s : State) : Result :=
  s.withReg tested fun t =>
    s.guarded { reads := t :: implicit, writes := [], access := none } fun s' =>
      .next (s'.branch (cond s [] t) target)

/-- A conditional jump to a register's value. -/
def jumpReg (cond : Condition) (implicit : List Reg) (src tested : Word12) (s : State) : Result :=
  s.withReg src fun r => s.withReg tested fun t =>
    s.guarded { reads := r :: t :: implicit, writes := [], access := none } fun s' =>
      .next (s'.branch (cond s [r] t) (s.value [] r))

/-- `x[t] = 0` (R154). -/
def testsZero : Condition := fun s before t => isZero (s.value before t)

/-- `x[t] < x[8]` (R156). -/
def testsLess : Condition := fun s before t => isLess (s.value before t) (s.value (before ++ [t]) cmpReg)

/-- `x[t] > x[8]` (R158). -/
def testsGreater : Condition := fun s before t => isGreater (s.value before t) (s.value (before ++ [t]) cmpReg)

/-- R152. Reads no register. -/
def execJmpi (target : Word12) (s : State) : Result := .next (s.branch true target)

/-- R153. -/
def execJmp (src : Word12) (s : State) : Result :=
  s.withReg src fun r =>
    s.guarded { reads := [r], writes := [], access := none } fun s' => .next (s'.branch true (s.value [] r))

/-- R154. -/
def execZjmpi (target tested : Word12) (s : State) : Result := jumpImm testsZero [] target tested s

/-- R155. -/
def execZjmp (src tested : Word12) (s : State) : Result := jumpReg testsZero [] src tested s

/-- R156. -/
def execLjmpi (target tested : Word12) (s : State) : Result := jumpImm testsLess [cmpReg] target tested s

/-- R157. -/
def execLjmp (src tested : Word12) (s : State) : Result := jumpReg testsLess [cmpReg] src tested s

/-- R158. -/
def execGjmpi (target tested : Word12) (s : State) : Result := jumpImm testsGreater [cmpReg] target tested s

/-- R159. -/
def execGjmp (src tested : Word12) (s : State) : Result := jumpReg testsGreater [cmpReg] src tested s

end Sys2Proof.Machine
end

