-- ==== Sys2Proof/Machine/LoadStore.lean ====
section
/-! DEFINITION. The extended set: loads and stores (spec 42_load_store R170 to R175). The access and the register write
take effect at the instruction itself; the operation enters the shadow record (R170). -/

namespace Sys2Proof.Machine

/-- Steps 5 to 8 of R170 for a load of the word at `a` into `d`. -/
def State.loaded (s : State) (d : Reg) (operand : Option Reg) (a : Word12) : State :=
  (s.setReg d (s.memRead a)).advanceRam (.load d operand a)

/-- Steps 5 to 8 of R170 for a store of `v` at `a`. -/
def State.stored (s : State) (operand : Option Reg) (a v : Word12) : State :=
  (s.memWrite a v).advanceRam (.store operand a)

/-- R172. -/
def execLoadi (addr dst : Word12) (s : State) : Result :=
  s.withReg dst fun d =>
    s.guarded { reads := [], writes := [d], access := some (.load addr) } fun s' => .next (s'.loaded d none addr)

/-- R173. The address is read before the destination is written. -/
def execLoad (src dst : Word12) (s : State) : Result :=
  s.withReg src fun r => s.withReg dst fun d =>
    s.guarded { reads := [r], writes := [d], access := some (.load (s.value [] r)) } fun s' =>
      .next (s'.loaded d (some r) (s.value [] r))

/-- R174. The second field is an address, never checked as a register number (R85). -/
def execStorei (value addr : Word12) (s : State) : Result :=
  s.guarded { reads := [], writes := [], access := some (.store addr) } fun s' => .next (s'.stored none addr value)

/-- R175. -/
def execStore (src addr : Word12) (s : State) : Result :=
  s.withReg src fun r =>
    s.guarded { reads := [r], writes := [], access := some (.store addr) } fun s' =>
      .next (s'.stored (some r) addr (s.value [] r))

end Sys2Proof.Machine
end

