-- ==== Sys2Proof/Machine/Virtual.lean ====
section
/-! DEFINITION. The virtual instructions (spec 43_virtual_instructions R190 to R199): `mswti` and `mswt` apply the net
effect of the function in one step. -/

namespace Sys2Proof.Machine

/-- The halted state of R194: registers, RAM and pc as they were. -/
def State.halt (s : State) : State := { s.retire none s.pc with halted := true }

/-- `hlt`, index 0 (R194). It reads and writes no register, so no shadow concerns it (R258). -/
def runHlt (s : State) : Result :=
  if s.params.debugPrototype then .next s.halt else raise (.hltDisabled s.pc)

/-- What `div` touches (R23, R192, R258): it reads its inputs and the return address, and writes its results and the
registers of DIV_CLOBBERS. -/
def divUses : Uses := { reads := [0, 1, retReg], writes := 0 :: 2 :: Config.divClobbers, access := none }

/-- The state after `div` of `n` by `m`, not zero, returning to `ret` (R195): the clobbered registers unspecified
(R196), the quotient in register 2, the remainder in register 0, the pc at `ret`. -/
def State.divided (s : State) (n m ret : Word12) : State :=
  (((s.drawRegs Config.divClobbers).setReg 2 (BitVec.ofNat 12 (n.toNat / m.toNat))).setReg 0
    (BitVec.ofNat 12 (n.toNat % m.toNat))).retire none ret

/-- `div`, index 1 (R195 to R197); all inputs are read before any write. By zero it never returns: the outcome `hang`,
log entry 9. -/
def runDiv (s : State) : Result :=
  s.guarded divUses fun s' =>
    if s.value [0] 1 = 0x000 then .fault (.hang s.pc)
    else .next (s'.divided (s.value [] 0) (s.value [0] 1) (s.value [0, 1] retReg))

/-- The virtual function of an index (R191, R198). -/
def runVirtual (index : Word12) (s : State) : Result :=
  if index = 0x000 then runHlt s
  else if index = 0x001 then runDiv s
  else raise (.undefinedVirtualFunction s.pc index)

/-- R192. -/
def execMswti (index : Word12) (s : State) : Result := runVirtual index s

/-- R193. The index register is checked and read before the function uses or changes it. -/
def execMswt (src : Word12) (s : State) : Result :=
  s.withReg src fun r =>
    s.guarded { reads := [r], writes := [], access := none } fun s' => runVirtual (s.value [] r) s'

end Sys2Proof.Machine
end

