-- ==== Sys2Proof/Machine/Dispatch.lean ====
section
/-! DEFINITION. The meaning of each instruction: one arm for each row of the opcode map (spec 30_encoding R87). -/

namespace Sys2Proof.Machine

def exec (i : Instr) (s : State) : Host.Outcome State Fault Refusal :=
  match i with
  | .nop => Sys2Proof.Machine.execNop s
  | .seti imm dst => Sys2Proof.Machine.execSeti imm dst s
  | .set src dst => Sys2Proof.Machine.execSet src dst s
  | .addi imm dst => Sys2Proof.Machine.execAddi imm dst s
  | .add src dst => Sys2Proof.Machine.execAdd src dst s
  | .muli imm dst => Sys2Proof.Machine.execMuli imm dst s
  | .mul src dst => Sys2Proof.Machine.execMul src dst s
  | .subi imm dst => Sys2Proof.Machine.execSubi imm dst s
  | .sub src dst => Sys2Proof.Machine.execSub src dst s
  | .sli imm dst => Sys2Proof.Machine.execSli imm dst s
  | .sl src dst => Sys2Proof.Machine.execSl src dst s
  | .sri imm dst => Sys2Proof.Machine.execSri imm dst s
  | .sr src dst => Sys2Proof.Machine.execSr src dst s
  | .andi imm dst => Sys2Proof.Machine.execAndi imm dst s
  | .and src dst => Sys2Proof.Machine.execAnd src dst s
  | .ori imm dst => Sys2Proof.Machine.execOri imm dst s
  | .or src dst => Sys2Proof.Machine.execOr src dst s
  | .not dst => Sys2Proof.Machine.execNot dst s
  | .mswti index => Sys2Proof.Machine.execMswti index s
  | .mswt src => Sys2Proof.Machine.execMswt src s
  | .jmpi target => Sys2Proof.Machine.execJmpi target s
  | .jmp src => Sys2Proof.Machine.execJmp src s
  | .zjmpi target tested => Sys2Proof.Machine.execZjmpi target tested s
  | .zjmp src tested => Sys2Proof.Machine.execZjmp src tested s
  | .ljmpi target tested => Sys2Proof.Machine.execLjmpi target tested s
  | .ljmp src tested => Sys2Proof.Machine.execLjmp src tested s
  | .gjmpi target tested => Sys2Proof.Machine.execGjmpi target tested s
  | .gjmp src tested => Sys2Proof.Machine.execGjmp src tested s
  | .loadi addr dst => Sys2Proof.Machine.execLoadi addr dst s
  | .load src dst => Sys2Proof.Machine.execLoad src dst s
  | .storei value addr => Sys2Proof.Machine.execStorei value addr s
  | .store src addr => Sys2Proof.Machine.execStore src addr s

end Sys2Proof.Machine
end

