-- ==== Sys2Proof/Machine/Step.lean ====
section
/-! DEFINITION. One step of the machine (spec 00_scope R11): fetch, decode, execute (30_encoding R88). -/

namespace Sys2Proof.Machine

/-- A marked machine goes no further (R221): its step answers the fault it carries. A halted one takes no further
step and keeps its state (R194, R235, log entry 10). Otherwise the instruction at the pc is executed. -/
def step (s : State) : Host.Outcome State Fault Refusal :=
  match s.faultMark with
  | some f => .fault f
  | none =>
    if s.halted then .next s
    else
      match s.fetch with
      | .ok i => exec i s
      | .error f => raise f

/-- The state with an instruction's word at the pc, in the user ROM, on a machine that runs (log entry 5). -/
def State.withFetchWord (s : State) (nbits w : Nat) : State :=
  { s.placeUrom s.pc (BitVec.ofNat 32 (w % 2 ^ nbits)) with halted := false, faultMark := none }

end Sys2Proof.Machine
end

