-- ==== Sys2Proof/Machine/Assembler.lean ====
section
/-! DEFINITION. ZAsm, the assembly language (spec 30_encoding R95 to R109; in scope by 00_scope R4): the text of a file
read into items, the items laid out at consecutive word addresses from 0 and emitted as the words of a user ROM image.
What the source leaves open (R109) is log entry 13; nothing here affects the machine. -/

namespace Sys2Proof.Asm

/-- An operand (R100, R103, R104). -/
inductive Operand where
  | number (n : Nat)
  | tag (name : List Char)
  /-- `@cmp`: 0x8 -/
  | cmp
  /-- `@ret`: 0x9 -/
  | ret
  /-- `@skipAddr`: current_address + 2 -/
  | skipAddr
  deriving DecidableEq, Repr

/-- An item of a file (R95): comment, tag definition, or instruction with its `sync.` mark, selector and operands. -/
inductive Item where
  | comment (text : List Char)
  | tagDef (name : List Char)
  | instr (sync : Bool) (sel : Byte) (first second : Operand)
  deriving DecidableEq, Repr

/-- Why a file is not assembled. Every case is one the source does not define (R109). -/
inductive AsmError where
  /-- text after the last `;` (R95) -/
  | unterminated
  /-- not of the form of R98 -/
  | badForm
  /-- no row of the opcode map has this name (R98, R107) -/
  | unknownMnemonic (name : List Char)
  /-- operands left out of another instruction than `nop` (R109 b) -/
  | omittedOperands
  /-- neither a decimal nor a `0x` hexadecimal number, nor a tag name, nor one of the three `@` names -/
  | badOperand (text : List Char)
  /-- `sync.` on an instruction that is not a load or store (R101, R109 d) -/
  | syncNotRam
  /-- a tag that no item defines (R109 h) -/
  | undefinedTag (name : List Char)
  /-- a tag defined twice (R109 h) -/
  | repeatedTag
  /-- an operand that does not fit 12 bits (R109 g) -/
  | outOfRange (n : Nat)
  /-- more words than the user ROM has -/
  | tooLong
  deriving DecidableEq, Repr

/-! ## The mnemonics: the "Asm name" column of the opcode map (R87, R98, R99) -/

def basicMoves : List (List Char × Byte) :=
  [(['n', 'o', 'p'], 0x00), (['s', 'e', 't', 'i'], 0x01), (['s', 'e', 't'], 0x11),
   (['a', 'd', 'd', 'i'], 0x02), (['a', 'd', 'd'], 0x12), (['m', 'u', 'l', 'i'], 0x03),
   (['m', 'u', 'l'], 0x13), (['s', 'u', 'b', 'i'], 0x04), (['s', 'u', 'b'], 0x14)]

def basicShiftsAndLogic : List (List Char × Byte) :=
  [(['s', 'l', 'i'], 0x05), (['s', 'l'], 0x15), (['s', 'r', 'i'], 0x06), (['s', 'r'], 0x16),
   (['a', 'n', 'd', 'i'], 0x07), (['a', 'n', 'd'], 0x17), (['o', 'r', 'i'], 0x08), (['o', 'r'], 0x18),
   (['n', 'o', 't'], 0x09)]

def basicControl : List (List Char × Byte) :=
  [(['m', 's', 'w', 't', 'i'], 0x0A), (['m', 's', 'w', 't'], 0x1A), (['j', 'm', 'p', 'i'], 0x0C),
   (['j', 'm', 'p'], 0x1C), (['z', 'j', 'm', 'p', 'i'], 0x0D), (['z', 'j', 'm', 'p'], 0x1D),
   (['l', 'j', 'm', 'p', 'i'], 0x0E), (['l', 'j', 'm', 'p'], 0x1E), (['g', 'j', 'm', 'p', 'i'], 0x0F),
   (['g', 'j', 'm', 'p'], 0x1F)]

def extended : List (List Char × Byte) :=
  [(['l', 'o', 'a', 'd', 'i'], 0x20), (['l', 'o', 'a', 'd'], 0x30), (['s', 't', 'o', 'r', 'e', 'i'], 0x21),
   (['s', 't', 'o', 'r', 'e'], 0x31)]

def mnemonics : List (List Char × Byte) := basicMoves ++ basicShiftsAndLogic ++ basicControl ++ extended

/-- The selector of a mnemonic (R99: the mnemonic fixes it). -/
def selectorOf (name : List Char) : Option Byte := mnemonics.lookup name

/-- The four load and store selectors, the only ones `sync.` is defined for (R101). -/
def isRamSel (sel : Byte) : Bool := decide (sel ∈ [0x20#8, 0x30#8, 0x21#8, 0x31#8])

/-! ## Layout and emission -/

/-- How many addresses an item takes (R96, R97, R101, R105). -/
def Item.size : Item → Nat
  | .comment _ => 0
  | .tagDef _ => 0
  | .instr sync _ _ _ => if sync then 3 else 1

def sizeOf (items : List Item) : Nat := (items.map Item.size).sum

/-- Each tag with the address of the next instruction after it (R97), counting from `addr`. DESIGN CHOICE: a tag that
no instruction follows, of which R97 is silent, has the address one past the last word; if that is 4096, an operand that
names it is `outOfRange`. Log entry 16. -/
def tagsFrom : Nat → List Item → List (List Char × Nat)
  | _, [] => []
  | addr, .tagDef name :: items => (name, addr) :: tagsFrom addr items
  | addr, item :: items => tagsFrom (addr + item.size) items

/-- A number as a 12-bit field (R100). -/
def fieldOf (n : Nat) : Except AsmError Word12 :=
  if n < 4096 then .ok (BitVec.ofNat 12 n) else .error (.outOfRange n)

/-- The field an operand of the instruction at `addr` assembles to (R100, R103, R104). -/
def Operand.field (tags : List (List Char × Nat)) (addr : Nat) : Operand → Except AsmError Word12
  | .number n => fieldOf n
  | .tag name =>
    match tags.lookup name with
    | some a => fieldOf a
    | none => .error (.undefinedTag name)
  | .cmp => .ok 0x008
  | .ret => .ok 0x009
  | .skipAddr => .ok (BitVec.ofNat 12 (addr + 2))

/-- The words of one item at `addr`: an instruction's word, and after a `sync.` one two `nop` words (R101, R106).
DESIGN CHOICE: an operand written in a position the instruction does not use (`jmpi:[1,5];`) is emitted as its field, as
R98 reads; R92 takes the assembler to emit zero there, and the machine ignores the field either way. Log entry 15. -/
def Item.words (tags : List (List Char × Nat)) (addr : Nat) : Item → Except AsmError (List Word32)
  | .comment _ => .ok []
  | .tagDef _ => .ok []
  | .instr sync sel first second =>
    if sync && !isRamSel sel then .error .syncNotRam
    else
      match first.field tags addr, second.field tags addr with
      | .ok f, .ok s =>
        .ok (packSel sel f s :: if sync then [encodeWord .nop, encodeWord .nop] else [])
      | .error e, _ => .error e
      | .ok _, .error e => .error e

/-- The words of items laid out from `addr` on (R105). -/
def emitFrom (tags : List (List Char × Nat)) : Nat → List Item → Except AsmError (List Word32)
  | _, [] => .ok []
  | addr, item :: items =>
    match item.words tags addr, emitFrom tags (addr + item.size) items with
    | .ok ws, .ok rest => .ok (ws ++ rest)
    | .error e, _ => .error e
    | .ok _, .error e => .error e

/-- No tag is defined twice. -/
def distinctTags : List (List Char × Nat) → Bool
  | [] => true
  | (name, _) :: tags => (tags.lookup name).isNone && distinctTags tags

/-- The image of a file's items: word `a` of the list is for user ROM address `a` (R105, R108). -/
def assemble (items : List Item) : Except AsmError (List Word32) :=
  if 4096 < sizeOf items then .error .tooLong
  else if !distinctTags (tagsFrom 0 items) then .error .repeatedTag
  else emitFrom (tagsFrom 0 items) 0 items

/-! ## Reading the text (R95 to R100) -/

/-- The text up to the first `c`, and the text after it. -/
def cutAt (c : Char) : List Char → Option (List Char × List Char)
  | [] => none
  | x :: xs =>
    if x = c then some ([], xs)
    else
      match cutAt c xs with
      | some (before, after) => some (x :: before, after)
      | none => none

/-- The pieces that end on `;`, and what is left after the last one (R95). -/
def pieces : List Char → List (List Char) × List Char
  | [] => ([], [])
  | x :: xs =>
    match pieces xs with
    | (ps, rest) =>
      if x = ';' then ([] :: ps, rest)
      else
        match ps with
        | [] => ([], x :: rest)
        | p :: more => ((x :: p) :: more, rest)

/-- White space at both ends left out (R109 f; where, log entry 13). -/
def trim (t : List Char) : List Char :=
  ((t.dropWhile Char.isWhitespace).reverse.dropWhile Char.isWhitespace).reverse

/-- A digit's value in base 16, or in base 10 for the ten decimal digits. -/
def digitValue (c : Char) : Option Nat :=
  ['0', '1', '2', '3', '4', '5', '6', '7', '8', '9', 'a', 'b', 'c', 'd', 'e', 'f'].idxOf? c.toLower

/-- The digits of a number in a base, the most significant first. -/
def digits (base : Nat) : Nat → List Char → Option Nat
  | acc, [] => some acc
  | acc, c :: cs =>
    match digitValue c with
    | some d => if d < base then digits base (acc * base + d) cs else none
    | none => none

/-- A decimal number, or a hexadecimal one after `0x` (R100, R109 a). -/
def parseNumber : List Char → Option Nat
  | [] => none
  | '0' :: 'x' :: c :: cs => digits 16 0 (c :: cs)
  | c :: cs => digits 10 0 (c :: cs)

/-- One operand (R100), white space at its ends left out already; inside it (after `@`, within a number) none may stand
(R109 f, log entry 13). -/
def parseOperand (text : List Char) : Except AsmError Operand :=
  match text with
  | [] => .error (.badOperand [])
  | '@' :: name =>
    if name = ['c', 'm', 'p'] then .ok .cmp
    else if name = ['r', 'e', 't'] then .ok .ret
    else if name = ['s', 'k', 'i', 'p', 'A', 'd', 'd', 'r'] then .ok .skipAddr
    else .error (.badOperand text)
  | c :: _ =>
    if c.isDigit then
      match parseNumber text with
      | some n => .ok (.number n)
      | none => .error (.badOperand text)
    else .ok (.tag text)

/-- The text between the square brackets: two operands, or nothing at all, which only `nop` may have. -/
def parseOperands (sel : Byte) (inside : List Char) : Except AsmError (Operand × Operand) :=
  if trim inside = [] then
    if sel = 0x00#8 then .ok (.number 0, .number 0) else .error .omittedOperands
  else
    match cutAt ',' inside with
    | none => .error .omittedOperands
    | some (f, s) =>
      match parseOperand (trim f), parseOperand (trim s) with
      | .ok first, .ok second => .ok (first, second)
      | .error e, _ => .error e
      | .ok _, .error e => .error e

/-- The mark and the name before the colon (R98): `sync.` or nothing, then a mnemonic. -/
def parseName : List Char → Except AsmError (Bool × Byte)
  | 's' :: 'y' :: 'n' :: 'c' :: '.' :: name =>
    match selectorOf name with
    | some sel => .ok (true, sel)
    | none => .error (.unknownMnemonic name)
  | name =>
    match selectorOf name with
    | some sel => .ok (false, sel)
    | none => .error (.unknownMnemonic name)

/-- An instruction: name, colon, operands in square brackets (R98). DESIGN CHOICE on R109 (f), log entry 13: white space
before and after the colon is left out, and none is left out inside a name (after `sync.`). -/
def parseInstr (text : List Char) : Except AsmError Item :=
  match cutAt ':' text with
  | none => .error .badForm
  | some (name, rest) =>
    match parseName (trim name), trim rest with
    | .error e, _ => .error e
    | .ok (sync, sel), '[' :: more =>
      match cutAt ']' more with
      | some (inside, []) =>
        match parseOperands sel inside with
        | .ok (first, second) => .ok (.instr sync sel first second)
        | .error e => .error e
      | _ => .error .badForm
    | .ok _, _ => .error .badForm

/-- One piece (R95 to R98): a comment starts with `#`, a tag definition with `.`. DESIGN CHOICE on R109 (f), log entry
13: white space between the dot and a tag's name is part of the name, which no operand can then refer to. -/
def parseItem (text : List Char) : Except AsmError Item :=
  match trim text with
  | '#' :: comment => .ok (.comment comment)
  | '.' :: name => if name = [] then .error .badForm else .ok (.tagDef name)
  | t => parseInstr t

def parseItems : List (List Char) → Except AsmError (List Item)
  | [] => .ok []
  | p :: ps =>
    match parseItem p, parseItems ps with
    | .ok item, .ok items => .ok (item :: items)
    | .error e, _ => .error e
    | .ok _, .error e => .error e

/-- A whole file's text (R95). -/
def parseFile (text : List Char) : Except AsmError (List Item) :=
  if trim (pieces text).2 = [] then parseItems (pieces text).1 else .error .unterminated

/-- From text to image (R108, without the Intel Hex layout, which is open: R68). -/
def assembleText (text : List Char) : Except AsmError (List Word32) :=
  match parseFile text with
  | .ok items => assemble items
  | .error e => .error e

end Sys2Proof.Asm
end

