-- ==== Sys2Proof/Machine/Run.lean ====
section
/-! DEFINITION. The state a machine is left in by a step, whatever its outcome (spec 00_scope R11): a fault sets the
fault mark and writes nothing else (60_exceptions R221), a `hang` and a refusal leave the state. -/

namespace Sys2Proof.Machine

/-- What a stop leaves behind: `hang` is no fault and is not marked (R11, R197). -/
def State.mark (s : State) : Fault → State
  | .hang _ => s
  | f => { s with faultMark := some f }

/-- The state after one step. -/
def advance (s : State) : State :=
  match step s with
  | .next t => t
  | .fault f => s.mark f
  | .refused _ => s

/-- The state after `n` steps. -/
def advanceBy : Nat → State → State
  | 0, s => s
  | n + 1, s => advanceBy n (advance s)

end Sys2Proof.Machine
end

