-- ==== Sys2Proof/Safety.lean ====
section
/-! DEFINITION. The terms statements are made in: the end of a run (spec 60_exceptions R235), what an instruction
touches (10_state R23) and when that violates a RAM shadow (70_reset_and_hazards R258, R260), frames, and the
invariants. Written from the rules, not from the meanings. -/

namespace Sys2Proof

/-- The 32 legal selector values (R87). -/
def legalSelectors : List Byte :=
  [0x00, 0x01, 0x11, 0x02, 0x12, 0x03, 0x13, 0x04, 0x14, 0x05, 0x15, 0x06, 0x16, 0x07, 0x17, 0x08] ++
  [0x18, 0x09, 0x0A, 0x1A, 0x0C, 0x1C, 0x0D, 0x1D, 0x0E, 0x1E, 0x0F, 0x1F, 0x20, 0x30, 0x21, 0x31]

namespace Machine

/-! ## The end of a run -/

/-- A final state: halted, and not faulted (R235). -/
def State.Final (s : State) : Prop := s.halted = true ∧ s.faultMark = none

/-- The machine is to execute an instruction: neither halted nor faulted. -/
def State.Running (s : State) : Prop := s.halted = false ∧ s.faultMark = none

/-! ## What an instruction touches -/

/-- A field numbers a register (R91). -/
def Names (n : Word12) (r : Reg) : Prop := n.toNat = r.val

/-- The register a field numbers; 0 stands for none, and is meant for well-formed instructions only. -/
def regIn (n : Word12) : Reg := if h : n.toNat < 10 then ⟨n.toNat, h⟩ else 0

/-- The registers `div` reads (R23). -/
def divReads : List Reg := [0, 1, 9]

/-- The registers `div` writes or makes unspecified (R23, R196). -/
def divWrites : List Reg := [0, 2, 1, 3, 4, 5, 6, 7, 8]

/-- What a virtual function touches, by its index (R23, R194, R195). -/
def virtualTouches (index : Word12) (reads : List Reg) : Uses :=
  if index = 1 then { reads := reads ++ divReads, writes := divWrites, access := none }
  else { reads := reads, writes := [], access := none }

/-- The explicit and implicit accesses of R23, for a well-formed instruction; the reads in the order of R223. -/
def touches (i : Instr) (s : State) : Uses :=
  match i with
  | .nop | .jmpi _ => { reads := [], writes := [], access := none }
  | .seti _ d => { reads := [], writes := [regIn d], access := none }
  | .set f d => { reads := [regIn f], writes := [regIn d], access := none }
  | .addi _ d | .muli _ d | .subi _ d | .sli _ d | .sri _ d | .andi _ d | .ori _ d | .not d =>
    { reads := [regIn d], writes := [regIn d], access := none }
  | .add f d | .mul f d | .sub f d | .sl f d | .sr f d | .and f d | .or f d =>
    { reads := [regIn f, regIn d], writes := [regIn d], access := none }
  | .mswti index => virtualTouches index []
  | .mswt f => virtualTouches (s.value [] (regIn f)) [regIn f]
  | .jmp f => { reads := [regIn f], writes := [], access := none }
  | .zjmpi _ t => { reads := [regIn t], writes := [], access := none }
  | .zjmp f t => { reads := [regIn f, regIn t], writes := [], access := none }
  | .ljmpi _ t | .gjmpi _ t => { reads := [regIn t, 8], writes := [], access := none }
  | .ljmp f t | .gjmp f t => { reads := [regIn f, regIn t, 8], writes := [], access := none }
  | .loadi a d => { reads := [], writes := [regIn d], access := some (.load a) }
  | .load f d => { reads := [regIn f], writes := [regIn d], access := some (.load (s.value [] (regIn f))) }
  | .storei _ a => { reads := [], writes := [], access := some (.store a) }
  | .store f a => { reads := [regIn f], writes := [], access := some (.store a) }

/-- The RAM address an instruction stores to, if it is a store: its second field (R171). -/
def storesTo : Instr → Option Word12
  | .storei _ a => some a
  | .store _ a => some a
  | _ => none

/-- The instructions that set the pc otherwise than to the next word: the jumps and the two that invoke a virtual
function (R28). -/
def isControl : Instr → Bool
  | .mswti _ | .mswt _ | .jmpi _ | .jmp _ | .zjmpi _ _ | .zjmp _ _ | .ljmpi _ _ | .ljmp _ _
  | .gjmpi _ _ | .gjmp _ _ => true
  | _ => false

/-- The first operand field is used: not a `-` cell of R86. -/
def usesFirst : Instr → Bool
  | .nop | .not _ => false
  | _ => true

/-- The second operand field is used: not a `-` cell of R86. -/
def usesSecond : Instr → Bool
  | .nop | .jmpi _ | .jmp _ | .mswti _ | .mswt _ => false
  | _ => true

/-! ## The RAM shadow -/

/-- The next slot is in the shadow of `op` (R257): it was one of the last two. -/
def State.InShadowOf (s : State) (op : RamOp) : Prop :=
  s.shadow.last = some op ∨ s.shadow.beforeLast = some op

/-- No RAM operation in the last two slots. -/
def State.NoShadow (s : State) : Prop := s.shadow.last = none ∧ s.shadow.beforeLast = none

/-- Whether a RAM access may not follow `op` in its shadow: never under the strict policy (R258 c), and under the
other one no load of the address a store has just written (R260). -/
def AccessForbidden (policy : HazardPolicy) (access : Access) (op : RamOp) : Prop :=
  policy = .strict ∨ ∃ a o, access = .load a ∧ op = .store o a

/-- An instruction that touches `u` violates the shadow of `op`: the clauses of R258, and R260. -/
def ShadowForbids (policy : HazardPolicy) (u : Uses) (op : RamOp) : Prop :=
  (∃ d, op.dest = some d ∧ (d ∈ u.reads ∨ d ∈ u.writes)) ∨
  (∃ o, op.operand = some o ∧ o ∈ u.writes) ∨
  ∃ access, u.access = some access ∧ AccessForbidden policy access op

/-- An instruction that touches `u` is a hazard violation now (R258). -/
def State.Violates (s : State) (u : Uses) : Prop :=
  ∃ op, s.InShadowOf op ∧ ShadowForbids s.params.hazardPolicy u op

/-! ## Where an instruction stops -/

/-- The stops of the templates R120, R150 and R170, in their order: a register field of 10 or more is InvalidRegister,
the first operand field before the second (R91, R223); a well-formed instruction in a shadow that forbids it is
HazardViolation, and names an operation of that shadow (R258, R260). -/
def StopsAsListed (i : Instr) (s : State) : Prop :=
  (∀ n, i.regFields.find? (fun n => !namesReg n) = some n → exec i s = .fault (.invalidRegister s.pc n)) ∧
  (i.wellFormed = true → s.Violates (touches i s) →
    ∃ op, s.InShadowOf op ∧ ShadowForbids s.params.hazardPolicy (touches i s) op ∧
      exec i s = .fault (.hazardViolation s.pc op))

/-- The payload of UnwrittenRegister (R222, code 4), the pc and the first register read that holds no value, where the
other treatment of R37 reports it: for an instruction with no bad register field that no shadow forbids (R223). The
model goes on with a free value; a claim that wants a run without such reads asks that this be `none` at each step. -/
def unwrittenRead (i : Instr) (s : State) : Option (Word12 × Reg) :=
  if i.wellFormed && (s.violated (touches i s)).isNone then
    ((touches i s).reads.find? fun r => !s.isWritten r).map (s.pc, ·)
  else none

/-- The instruction's word has this selector and decodes to the instruction. -/
def EncodedAs (i : Instr) (sel : Byte) : Prop :=
  selOf (encodeWord i) = sel ∧ decodeWord (encodeWord i) = some i

/-! ## Frames -/

/-- Everything an instruction leaves alone that reads the registers `read`, in order, and writes at most the registers
`written` and the RAM word `stored`, but for the pc and the shadow record, which every slot changes: other registers
and whether they hold a value, every other byte of the RAM, the user ROM, the halt bit, the fault mark, the parameters;
the free values' counter counts the reads of registers that hold no value. -/
structure Frame (s t : State) (read written : List Reg) (stored : Option Word12) : Prop where
  regs : ∀ r, r ∉ written → t.reg r = s.reg r ∧ t.isWritten r = s.isWritten r
  ram : ∀ key, (∀ a, stored = some a → key / 4 ≠ a.toNat) → t.ramByte key = s.ramByte key
  urom : t.urom = s.urom
  halted : t.halted = s.halted
  faultMark : t.faultMark = s.faultMark
  params : t.params = s.params
  freeCount : t.freeCount = s.freeCount + s.drawn read

/-- The slot is over and it was the RAM operation `op`, if any: the record moves on (R35, R257). -/
def SlotOver (s t : State) (op : Option RamOp) : Prop :=
  t.shadow.last = op ∧ t.shadow.beforeLast = s.shadow.last

/-- The pc is at the next word, modulo 4096 (R28, R29). -/
def PcAdvanced (s t : State) : Prop := t.pc.toNat = (s.pc.toNat + 1) % 4096

/-- What an instruction that reads `read`, writes register `d` and is no load does besides the value it writes: the
register holds a value now. -/
def WritesOnly (s t : State) (read : List Reg) (d : Reg) : Prop :=
  Frame s t read [d] none ∧ t.isWritten d = true ∧ SlotOver s t none ∧ PcAdvanced s t

/-- What a jump that reads `read` does besides the pc it sets: no register, no memory. -/
def JumpsOnly (s t : State) (read : List Reg) : Prop := Frame s t read [] none ∧ SlotOver s t none

/-! ## Invariants -/

/-- Both memories are in canonical form, and so is what the parameters give of RAM_INIT. -/
def State.MemoriesCanonical (s : State) : Prop :=
  Memory.wf s.ram = true ∧ Memory.wf s.urom = true ∧ Memory.wf s.params.ramInit = true

/-- A RAM word no store has written lists none of its bytes; one that a store has written lists all four, and its
bits 31 to 12 are zero (R57, U22). -/
def State.StoredWordsNarrow (s : State) : Prop :=
  ∀ a : Word12, (∀ k, k < 4 → Memory.find s.ram (byteKey a k) = none) ∨
    ∃ v : Word12, Memory.find s.ram (byteKey a 0) = some ((zext32 v).extractLsb' 24 8) ∧
      Memory.find s.ram (byteKey a 1) = some ((zext32 v).extractLsb' 16 8) ∧
      Memory.find s.ram (byteKey a 2) = some ((zext32 v).extractLsb' 8 8) ∧
      Memory.find s.ram (byteKey a 3) = some ((zext32 v).extractLsb' 0 8)

/-- Under the strict policy at most one of the last two slots was a RAM operation (R258 c). -/
def State.RamOpsSpaced (s : State) : Prop :=
  s.params.hazardPolicy = .strict → s.shadow.last = none ∨ s.shadow.beforeLast = none

end Machine

end Sys2Proof
end

