-- ==== Sys2Proof/Certificates/Slice0/Obligations.lean ====
section
/-! DEFINITION. The statements for the provers. Each docstring names the rule it formalises. A hypothesis `Names n r`
says that field `n` numbers register `r` (R91), and `¬ s.Violates u` that no RAM shadow forbids an instruction that
touches `u` (R258); `StopsAsListed` states the forms these leave out. `s.value before r` is what reading register `r`
gives after the reads `before`: the register's value if it holds one, else a free value (R37). -/

open Sys2Proof Sys2Proof.Machine

/-! ## Reset -/

/-- R36, R40, and what R37 and R38 say of reset: the pc at RESET_PC, no register holds a value, every RAM word
RAM_INIT's, halted false, the fault mark clear, the shadow record empty. -/
def Obligations.ResetLeavesTheLaunchState : Prop :=
  State.reset.pc = 0x000 ∧ (∀ r, State.reset.isWritten r = false) ∧
  (∀ a, State.reset.ramWord a = ramInitWord State.reset.params a) ∧
  State.reset.halted = false ∧ State.reset.faultMark = none ∧ State.reset.NoShadow

/-- R250, R36 to R40, for every argument of R8: the launch state of a part with RAM_INIT and the other parameters given,
and a program. The pc is at RESET_PC, no register holds a value, every RAM word is RAM_INIT's, every user ROM word the
program defines is the program's. -/
def Obligations.LaunchTakesItsArguments : Prop :=
  ∀ (p : Params) (image : List Word32), image.length ≤ 4096 →
    (State.launch p image).pc = 0x000 ∧ (∀ r, (State.launch p image).isWritten r = false) ∧
    (∀ (key : Nat) (b : Byte), key < 4 * 4096 → Memory.find p.ramInit key = some b →
      (State.launch p image).ramByte key = b) ∧
    (∀ a, (State.launch p image).ramWord a = ramInitWord p a) ∧
    (∀ (k : Nat) (h : k < image.length), (State.launch p image).uromWord (BitVec.ofNat 12 k) = image[k]) ∧
    (State.launch p image).halted = false ∧ (State.launch p image).faultMark = none ∧
    (State.launch p image).NoShadow ∧ (State.launch p image).params = p

/-- The model's own choices at reset: the registers' fields have the opaque `Config.regReset` (log entry 1), RAM words
the opaque `Config.ramInit` (log entry 3), user ROM words the opaque `Config.uromInit` (log entry 4), a debug prototype
with the strict policy (log entries 6 and 7), no free value drawn (log entry 8). -/
def Obligations.ResetValuesTheModelNames : Prop :=
  (∀ r, State.reset.reg r = Config.regReset r) ∧ (∀ a, State.reset.uromWord a = Config.uromInit a) ∧
  (∀ a, State.reset.ramWord a = Config.ramInit a) ∧
  State.reset.params.debugPrototype = true ∧ State.reset.params.hazardPolicy = .strict ∧
  State.reset.freeCount = 0

/-- The three invariants below hold at reset. -/
def Obligations.ResetMeetsTheInvariants : Prop :=
  State.reset.MemoriesCanonical ∧ State.reset.StoredWordsNarrow ∧ State.reset.RamOpsSpaced

/-! ## Invariants of every step -/

/-- Both memories stay in canonical form: the model's memory layout, log entry 2. -/
def Obligations.StepKeepsMemoriesCanonical : Prop :=
  ∀ s t, step s = .next t → s.MemoriesCanonical → t.MemoriesCanonical

/-- R57, U22: bits 31 to 12 of every stored RAM word stay zero, and a word is stored whole. -/
def Obligations.StepKeepsStoredWordsNarrow : Prop :=
  ∀ s t, step s = .next t → s.StoredWordsNarrow → t.StoredWordsNarrow

/-- R258 (c): under the strict policy RAM instructions are at least three slots apart. Of the last two slots at most one
was a RAM operation, and an instruction that is one is executed only when neither of the two slots before it was. -/
def Obligations.StepKeepsRamOperationsSpaced : Prop :=
  (∀ s t, step s = .next t → s.RamOpsSpaced → t.RamOpsSpaced) ∧
  ∀ s t op, s.Running → s.params.hazardPolicy = .strict → step s = .next t → t.shadow.last = some op →
    s.NoShadow

/-! ## Encoding -/

/-- Decoding the four-byte image of any instruction, whatever bytes follow, gives it back with every operand. -/
def Obligations.DecodeOfEncodeIsTheInstruction : Prop :=
  ∀ i rest, decode (encode i ++ rest) = .ok (i, rest)

/-- Encoding what a word decodes to gives the word back, its unused fields zero (R81, R86, R92). -/
def Obligations.EncodeOfDecodeIsTheWordUsed : Prop :=
  ∀ w i, decodeWord w = some i →
    encodeWord i = packSel (selOf w) (if usesFirst i then firstOf w else 0) (if usesSecond i then secondOf w else 0)

/-- R88, R89: exactly the 32 legal selector values are decoded. -/
def Obligations.DecoderAcceptsExactlyTheLegalSelectors : Prop :=
  legalSelectors.length = 32 ∧ legalSelectors.Nodup ∧
  ∀ w, (decodeWord w).isSome = true ↔ selOf w ∈ legalSelectors

/-- R90: a word with a reserved flags bit set is no instruction; no instruction is encoded with one. -/
def Obligations.ReservedFlagBitsAreIllegal : Prop :=
  (∀ w, (flgOf w).getLsbD 2 = true ∨ (flgOf w).getLsbD 3 = true → decodeWord w = none) ∧
  ∀ i, (flgOf (encodeWord i)).getLsbD 2 = false ∧ (flgOf (encodeWord i)).getLsbD 3 = false

/-- R92: a field the instruction does not use takes any value. -/
def Obligations.UnusedFieldsAreIgnored : Prop :=
  ∀ w w' i, decodeWord w = some i → selOf w' = selOf w →
    (usesFirst i = true → firstOf w' = firstOf w) → (usesSecond i = true → secondOf w' = secondOf w) →
    decodeWord w' = some i

/-- R54: the four bytes of an instruction's image, in order. -/
def Obligations.FourByteImageOfAnInstruction : Prop :=
  ∀ (opc flg : BitVec 4) (f s : Word12),
    wordBytes (packWord opc flg f s) =
      [s.extractLsb' 4 8, s.extractLsb' 0 4 ++ f.extractLsb' 8 4, f.extractLsb' 0 8, flg ++ opc]

/-- Words written out from the spec's encodings decode to what they stand for, one of each family. -/
def Obligations.WrittenWordsDecode : Prop :=
  decode [0x00, 0x41, 0x23, 0x01] = .ok (.seti 0x123 4, []) ∧
  decode [0x00, 0x10, 0x02, 0x12] = .ok (.add 2 1, []) ∧
  decode [0x00, 0x30, 0x20, 0x0D] = .ok (.zjmpi 0x020 3, []) ∧
  decode [0x10, 0x10, 0x02, 0x31] = .ok (.store 2 0x101, []) ∧
  decode [0x00, 0x00, 0x03, 0x1A] = .ok (.mswt 3, []) ∧
  decode [0x00, 0x30, 0x00, 0x19] = .error (.illegalInstruction 0x00300019)

/-! ## Step -/

/-- When the bytes at the pc decode to an instruction, a running machine's step is that instruction's execution at
this state; nothing stands around it. -/
def Obligations.StepRunsTheDecodedInstruction : Prop :=
  ∀ s i, s.Running → decode (wordBytes (s.uromWord s.pc)) = .ok (i, []) → step s = exec i s

/-- R88: a word whose selector is not legal raises IllegalInstruction, with the pc and the word. -/
def Obligations.StepRaisesIllegalInstruction : Prop :=
  ∀ s, s.Running → selOf (s.uromWord s.pc) ∉ legalSelectors →
    step s = .fault (.illegalInstruction s.pc (s.uromWord s.pc))

/-- A word placed where the next instruction is fetched is the one the next step runs: the model's loader, log
entry 5. -/
def Obligations.PlacedWordIsTheNextExecuted : Prop :=
  ∀ (s : State) (w : Word32) i, decodeWord w = some i →
    step (s.withFetchWord 32 w.toNat) = exec i (s.withFetchWord 32 w.toNat)

/-! ## Moves and ALU -/

/-- R122, R28, R29. -/
def Obligations.NopOnlyAdvances : Prop :=
  EncodedAs .nop 0x00 ∧
  ∀ s, ∃ t, exec .nop s = .next t ∧ Frame s t [] [] none ∧ SlotOver s t none ∧ PcAdvanced s t

/-- R123, R124. -/
def Obligations.MovesAssignTheDestination : Prop :=
  (∀ s imm dst, EncodedAs (.seti imm dst) 0x01 ∧ StopsAsListed (.seti imm dst) s ∧
    ∀ d, Names dst d → ¬ s.Violates ⟨[], [d], none⟩ →
      ∃ t, exec (.seti imm dst) s = .next t ∧ t.reg d = imm ∧ WritesOnly s t [] d) ∧
  (∀ s src dst, EncodedAs (.set src dst) 0x11 ∧ StopsAsListed (.set src dst) s ∧
    ∀ r d, Names src r → Names dst d → ¬ s.Violates ⟨[r], [d], none⟩ →
      ∃ t, exec (.set src dst) s = .next t ∧ t.reg d = s.value [] r ∧ WritesOnly s t [r] d)

/-- R125, R126. -/
def Obligations.AdditionIsModulo4096 : Prop :=
  (∀ s imm dst, EncodedAs (.addi imm dst) 0x02 ∧ StopsAsListed (.addi imm dst) s ∧
    ∀ d, Names dst d → ¬ s.Violates ⟨[d], [d], none⟩ →
      ∃ t, exec (.addi imm dst) s = .next t ∧
        (t.reg d).toNat = ((s.value [] d).toNat + imm.toNat) % 4096 ∧ WritesOnly s t [d] d) ∧
  (∀ s src dst, EncodedAs (.add src dst) 0x12 ∧ StopsAsListed (.add src dst) s ∧
    ∀ r d, Names src r → Names dst d → ¬ s.Violates ⟨[r, d], [d], none⟩ →
      ∃ t, exec (.add src dst) s = .next t ∧
        (t.reg d).toNat = ((s.value [r] d).toNat + (s.value [] r).toNat) % 4096 ∧ WritesOnly s t [r, d] d)

/-- R127, R128. -/
def Obligations.MultiplicationKeepsTheLowBits : Prop :=
  (∀ s imm dst, EncodedAs (.muli imm dst) 0x03 ∧ StopsAsListed (.muli imm dst) s ∧
    ∀ d, Names dst d → ¬ s.Violates ⟨[d], [d], none⟩ →
      ∃ t, exec (.muli imm dst) s = .next t ∧
        (t.reg d).toNat = (s.value [] d).toNat * imm.toNat % 4096 ∧ WritesOnly s t [d] d) ∧
  (∀ s src dst, EncodedAs (.mul src dst) 0x13 ∧ StopsAsListed (.mul src dst) s ∧
    ∀ r d, Names src r → Names dst d → ¬ s.Violates ⟨[r, d], [d], none⟩ →
      ∃ t, exec (.mul src dst) s = .next t ∧
        (t.reg d).toNat = (s.value [r] d).toNat * (s.value [] r).toNat % 4096 ∧ WritesOnly s t [r, d] d)

/-- R129, R130, and R121's law of `sub`: second operand minus first, `B - A` or `B - A + 4096`. -/
def Obligations.SubtractionIsSecondMinusFirst : Prop :=
  (∀ s imm dst, EncodedAs (.subi imm dst) 0x04 ∧ StopsAsListed (.subi imm dst) s ∧
    ∀ d, Names dst d → ¬ s.Violates ⟨[d], [d], none⟩ →
      ∃ t, exec (.subi imm dst) s = .next t ∧
        ((t.reg d).toNat : Int) =
          (if imm.toNat ≤ (s.value [] d).toNat then ((s.value [] d).toNat : Int) - imm.toNat
            else ((s.value [] d).toNat : Int) - imm.toNat + 4096) ∧ WritesOnly s t [d] d) ∧
  (∀ s src dst, EncodedAs (.sub src dst) 0x14 ∧ StopsAsListed (.sub src dst) s ∧
    ∀ r d, Names src r → Names dst d → ¬ s.Violates ⟨[r, d], [d], none⟩ →
      ∃ t, exec (.sub src dst) s = .next t ∧
        ((t.reg d).toNat : Int) =
          (if (s.value [] r).toNat ≤ (s.value [r] d).toNat then ((s.value [r] d).toNat : Int) - (s.value [] r).toNat
            else ((s.value [r] d).toNat : Int) - (s.value [] r).toNat + 4096) ∧ WritesOnly s t [r, d] d)

/-- R131, R132: zeros enter at bit 0; bit k of the result is bit k - n of the old value, and an amount of 12 or more
gives 0. -/
def Obligations.LeftShiftMovesBitsUp : Prop :=
  (∀ s imm dst, EncodedAs (.sli imm dst) 0x05 ∧ StopsAsListed (.sli imm dst) s ∧
    ∀ d, Names dst d → ¬ s.Violates ⟨[d], [d], none⟩ →
      ∃ t, exec (.sli imm dst) s = .next t ∧
        (12 ≤ imm.toNat → t.reg d = 0x000) ∧
        (imm.toNat < 12 → (t.reg d).toNat = (s.value [] d).toNat * 2 ^ imm.toNat % 4096) ∧
        (∀ k, k < 12 →
          (t.reg d).getLsbD k = (decide (imm.toNat ≤ k) && (s.value [] d).getLsbD (k - imm.toNat))) ∧
        WritesOnly s t [d] d) ∧
  (∀ s src dst, EncodedAs (.sl src dst) 0x15 ∧ StopsAsListed (.sl src dst) s ∧
    ∀ r d, Names src r → Names dst d → ¬ s.Violates ⟨[r, d], [d], none⟩ →
      ∃ t, exec (.sl src dst) s = .next t ∧
        (12 ≤ (s.value [] r).toNat → t.reg d = 0x000) ∧
        ((s.value [] r).toNat < 12 → (t.reg d).toNat = (s.value [r] d).toNat * 2 ^ (s.value [] r).toNat % 4096) ∧
        (∀ k, k < 12 →
          (t.reg d).getLsbD k =
            (decide ((s.value [] r).toNat ≤ k) && (s.value [r] d).getLsbD (k - (s.value [] r).toNat))) ∧
        WritesOnly s t [r, d] d)

/-- R133, R134: logical; bit k of the result is bit k + n of the old value, zeros enter at bit 11. -/
def Obligations.RightShiftMovesBitsDown : Prop :=
  (∀ s imm dst, EncodedAs (.sri imm dst) 0x06 ∧ StopsAsListed (.sri imm dst) s ∧
    ∀ d, Names dst d → ¬ s.Violates ⟨[d], [d], none⟩ →
      ∃ t, exec (.sri imm dst) s = .next t ∧
        (12 ≤ imm.toNat → t.reg d = 0x000) ∧
        (imm.toNat < 12 → (t.reg d).toNat = (s.value [] d).toNat / 2 ^ imm.toNat) ∧
        (∀ k, (t.reg d).getLsbD k = (s.value [] d).getLsbD (k + imm.toNat)) ∧ WritesOnly s t [d] d) ∧
  (∀ s src dst, EncodedAs (.sr src dst) 0x16 ∧ StopsAsListed (.sr src dst) s ∧
    ∀ r d, Names src r → Names dst d → ¬ s.Violates ⟨[r, d], [d], none⟩ →
      ∃ t, exec (.sr src dst) s = .next t ∧
        (12 ≤ (s.value [] r).toNat → t.reg d = 0x000) ∧
        ((s.value [] r).toNat < 12 → (t.reg d).toNat = (s.value [r] d).toNat / 2 ^ (s.value [] r).toNat) ∧
        (∀ k, (t.reg d).getLsbD k = (s.value [r] d).getLsbD (k + (s.value [] r).toNat)) ∧ WritesOnly s t [r, d] d)

/-- R135, R136, R137, R138: bit by bit. -/
def Obligations.AndAndOrActOnEachBit : Prop :=
  (∀ s imm dst, EncodedAs (.andi imm dst) 0x07 ∧ StopsAsListed (.andi imm dst) s ∧
    ∀ d, Names dst d → ¬ s.Violates ⟨[d], [d], none⟩ →
      ∃ t, exec (.andi imm dst) s = .next t ∧
        (∀ k, (t.reg d).getLsbD k = ((s.value [] d).getLsbD k && imm.getLsbD k)) ∧ WritesOnly s t [d] d) ∧
  (∀ s src dst, EncodedAs (.and src dst) 0x17 ∧ StopsAsListed (.and src dst) s ∧
    ∀ r d, Names src r → Names dst d → ¬ s.Violates ⟨[r, d], [d], none⟩ →
      ∃ t, exec (.and src dst) s = .next t ∧
        (∀ k, (t.reg d).getLsbD k = ((s.value [r] d).getLsbD k && (s.value [] r).getLsbD k)) ∧
        WritesOnly s t [r, d] d) ∧
  (∀ s imm dst, EncodedAs (.ori imm dst) 0x08 ∧ StopsAsListed (.ori imm dst) s ∧
    ∀ d, Names dst d → ¬ s.Violates ⟨[d], [d], none⟩ →
      ∃ t, exec (.ori imm dst) s = .next t ∧
        (∀ k, (t.reg d).getLsbD k = ((s.value [] d).getLsbD k || imm.getLsbD k)) ∧ WritesOnly s t [d] d) ∧
  (∀ s src dst, EncodedAs (.or src dst) 0x18 ∧ StopsAsListed (.or src dst) s ∧
    ∀ r d, Names src r → Names dst d → ¬ s.Violates ⟨[r, d], [d], none⟩ →
      ∃ t, exec (.or src dst) s = .next t ∧
        (∀ k, (t.reg d).getLsbD k = ((s.value [r] d).getLsbD k || (s.value [] r).getLsbD k)) ∧
        WritesOnly s t [r, d] d)

/-- R139: the one's complement, `4095 - v`. -/
def Obligations.NotIsTheOnesComplement : Prop :=
  ∀ s dst, EncodedAs (.not dst) 0x09 ∧ StopsAsListed (.not dst) s ∧
    ∀ d, Names dst d → ¬ s.Violates ⟨[d], [d], none⟩ →
      ∃ t, exec (.not dst) s = .next t ∧
        (t.reg d).toNat = 4095 - (s.value [] d).toNat ∧
        (∀ k, k < 12 → (t.reg d).getLsbD k = !(s.value [] d).getLsbD k) ∧ WritesOnly s t [d] d

/-- R140, the identities that are about instructions: each equation holds wherever its instructions complete. An
identity that reads one register twice is about a register that holds a value; the others hold of a free one too. -/
def Obligations.AluIdentities : Prop :=
  (∀ s t u f n d, Names n d → exec (.addi f n) s = .next t → exec (.subi f n) t = .next u →
    u.reg d = s.value [] d) ∧
  (∀ s t u m n r d, Names m r → Names n d → r ≠ d → s.isWritten r = true → exec (.sub m n) s = .next t →
    exec (.add m n) t = .next u → u.reg d = s.value [] d) ∧
  (∀ s f n, f.toNat < 12 → exec (.sli f n) s = exec (.muli (BitVec.ofNat 12 (2 ^ f.toNat)) n) s) ∧
  (∀ s t u n d, Names n d → exec (.not n) s = .next t → exec (.not n) t = .next u → u.reg d = s.value [] d) ∧
  (∀ s t u v n d, Names n d → exec (.muli 0xFFF n) s = .next t → exec (.not n) s = .next u →
    exec (.addi 1 n) u = .next v → v.reg d = t.reg d) ∧
  (∀ s t m n r d, Names m r → Names n d → r = d → s.isWritten d = true →
    exec (.and m n) s = .next t ∨ exec (.or m n) s = .next t → t.reg d = s.reg d)

/-! ## Jumps -/

/-- R152, R153. -/
def Obligations.UnconditionalJumpsGoToTheTarget : Prop :=
  (∀ s target, EncodedAs (.jmpi target) 0x0C ∧
    ∃ t, exec (.jmpi target) s = .next t ∧ t.pc = target ∧ JumpsOnly s t []) ∧
  (∀ s src, EncodedAs (.jmp src) 0x1C ∧ StopsAsListed (.jmp src) s ∧
    ∀ r, Names src r → ¬ s.Violates ⟨[r], [], none⟩ →
      ∃ t, exec (.jmp src) s = .next t ∧ t.pc = s.value [] r ∧ JumpsOnly s t [r])

/-- R154, R155: to the target if the tested register is zero, else to the next word. -/
def Obligations.ZeroJumpsTestTheRegister : Prop :=
  (∀ s target tested, EncodedAs (.zjmpi target tested) 0x0D ∧ StopsAsListed (.zjmpi target tested) s ∧
    ∀ d, Names tested d → ¬ s.Violates ⟨[d], [], none⟩ →
      ∃ t, exec (.zjmpi target tested) s = .next t ∧
        ((s.value [] d).toNat = 0 → t.pc = target) ∧ ((s.value [] d).toNat ≠ 0 → PcAdvanced s t) ∧
        JumpsOnly s t [d]) ∧
  (∀ s src tested, EncodedAs (.zjmp src tested) 0x1D ∧ StopsAsListed (.zjmp src tested) s ∧
    ∀ r d, Names src r → Names tested d → ¬ s.Violates ⟨[r, d], [], none⟩ →
      ∃ t, exec (.zjmp src tested) s = .next t ∧
        ((s.value [r] d).toNat = 0 → t.pc = s.value [] r) ∧ ((s.value [r] d).toNat ≠ 0 → PcAdvanced s t) ∧
        JumpsOnly s t [r, d])

/-- R156, R157: strictly less than the compare register, unsigned. -/
def Obligations.LessJumpsCompareUnsigned : Prop :=
  (∀ s target tested, EncodedAs (.ljmpi target tested) 0x0E ∧ StopsAsListed (.ljmpi target tested) s ∧
    ∀ d, Names tested d → ¬ s.Violates ⟨[d, 8], [], none⟩ →
      ∃ t, exec (.ljmpi target tested) s = .next t ∧
        ((s.value [] d).toNat < (s.value [d] 8).toNat → t.pc = target) ∧
        ((s.value [d] 8).toNat ≤ (s.value [] d).toNat → PcAdvanced s t) ∧ JumpsOnly s t [d, 8]) ∧
  (∀ s src tested, EncodedAs (.ljmp src tested) 0x1E ∧ StopsAsListed (.ljmp src tested) s ∧
    ∀ r d, Names src r → Names tested d → ¬ s.Violates ⟨[r, d, 8], [], none⟩ →
      ∃ t, exec (.ljmp src tested) s = .next t ∧
        ((s.value [r] d).toNat < (s.value [r, d] 8).toNat → t.pc = s.value [] r) ∧
        ((s.value [r, d] 8).toNat ≤ (s.value [r] d).toNat → PcAdvanced s t) ∧ JumpsOnly s t [r, d, 8])

/-- R158, R159: strictly greater than the compare register, unsigned. -/
def Obligations.GreaterJumpsCompareUnsigned : Prop :=
  (∀ s target tested, EncodedAs (.gjmpi target tested) 0x0F ∧ StopsAsListed (.gjmpi target tested) s ∧
    ∀ d, Names tested d → ¬ s.Violates ⟨[d, 8], [], none⟩ →
      ∃ t, exec (.gjmpi target tested) s = .next t ∧
        ((s.value [d] 8).toNat < (s.value [] d).toNat → t.pc = target) ∧
        ((s.value [] d).toNat ≤ (s.value [d] 8).toNat → PcAdvanced s t) ∧ JumpsOnly s t [d, 8]) ∧
  (∀ s src tested, EncodedAs (.gjmp src tested) 0x1F ∧ StopsAsListed (.gjmp src tested) s ∧
    ∀ r d, Names src r → Names tested d → ¬ s.Violates ⟨[r, d, 8], [], none⟩ →
      ∃ t, exec (.gjmp src tested) s = .next t ∧
        ((s.value [r, d] 8).toNat < (s.value [r] d).toNat → t.pc = s.value [] r) ∧
        ((s.value [r] d).toNat ≤ (s.value [r, d] 8).toNat → PcAdvanced s t) ∧ JumpsOnly s t [r, d, 8])

/-! ## Loads and stores -/

/-- R56, R57: a word written and read back, and every other word as before. -/
def Obligations.MemReadAfterMemWrite : Prop :=
  ∀ (s : State) (a b v : Word12),
    (s.memWrite a v).memRead a = v ∧ ((s.memWrite a v).ramWord a).toNat = v.toNat ∧
    (b ≠ a → (s.memWrite a v).ramWord b = s.ramWord b) ∧
    (s.memRead b).toNat = (s.ramWord b).toNat % 4096

/-- R172, R173: the low 12 bits of the word, and the operation in the shadow record. -/
def Obligations.LoadsReadTheLowBits : Prop :=
  (∀ s addr dst, EncodedAs (.loadi addr dst) 0x20 ∧ StopsAsListed (.loadi addr dst) s ∧
    ∀ d, Names dst d → ¬ s.Violates ⟨[], [d], some (.load addr)⟩ →
      ∃ t, exec (.loadi addr dst) s = .next t ∧ (t.reg d).toNat = (s.ramWord addr).toNat % 4096 ∧
        Frame s t [] [d] none ∧ t.isWritten d = true ∧
        SlotOver s t (some (.load d none addr)) ∧ PcAdvanced s t) ∧
  (∀ s src dst, EncodedAs (.load src dst) 0x30 ∧ StopsAsListed (.load src dst) s ∧
    ∀ r d, Names src r → Names dst d → ¬ s.Violates ⟨[r], [d], some (.load (s.value [] r))⟩ →
      ∃ t, exec (.load src dst) s = .next t ∧ (t.reg d).toNat = (s.ramWord (s.value [] r)).toNat % 4096 ∧
        Frame s t [r] [d] none ∧ t.isWritten d = true ∧
        SlotOver s t (some (.load d (some r) (s.value [] r))) ∧ PcAdvanced s t)

/-- R174, R175: the whole word, zero-extended, at the address in the second field; no register changes. -/
def Obligations.StoresWriteTheWholeWord : Prop :=
  (∀ s value addr, EncodedAs (.storei value addr) 0x21 ∧ StopsAsListed (.storei value addr) s ∧
    (¬ s.Violates ⟨[], [], some (.store addr)⟩ →
      ∃ t, exec (.storei value addr) s = .next t ∧ (t.ramWord addr).toNat = value.toNat ∧
        Frame s t [] [] (some addr) ∧ SlotOver s t (some (.store none addr)) ∧ PcAdvanced s t)) ∧
  (∀ s src addr, EncodedAs (.store src addr) 0x31 ∧ StopsAsListed (.store src addr) s ∧
    ∀ r, Names src r → ¬ s.Violates ⟨[r], [], some (.store addr)⟩ →
      ∃ t, exec (.store src addr) s = .next t ∧ (t.ramWord addr).toNat = (s.value [] r).toNat ∧
        Frame s t [r] [] (some addr) ∧ SlotOver s t (some (.store (some r) addr)) ∧ PcAdvanced s t)

/-! ## Virtual instructions -/

/-- R194. With DEBUG_PROTOTYPE true: halted for good, and the registers, the pc and the RAM as they were; with
DEBUG_PROTOTYPE false: HltDisabled. Invoked by `mswti` it reads no register and is permitted in any shadow. -/
def Obligations.HltStopsOnlyADebugPrototype : Prop :=
  EncodedAs (.mswti 0) 0x0A ∧ (∀ src, EncodedAs (.mswt src) 0x1A) ∧
  (∀ s, s.params.debugPrototype = true →
    ∃ t, exec (.mswti 0) s = .next t ∧ t.halted = true ∧ t.pc = s.pc ∧
      Frame s { t with halted := s.halted } [] [] none ∧ SlotOver s t none ∧ ∀ n, advanceBy n t = t) ∧
  (∀ s src r, Names src r → ¬ s.Violates ⟨[r], [], none⟩ → s.value [] r = 0 →
    s.params.debugPrototype = true →
    ∃ t, exec (.mswt src) s = .next t ∧ t.halted = true ∧ t.pc = s.pc ∧
      Frame s { t with halted := s.halted } [r] [] none ∧ SlotOver s t none ∧ ∀ n, advanceBy n t = t) ∧
  (∀ s, s.params.debugPrototype = false → exec (.mswti 0) s = .fault (.hltDisabled s.pc)) ∧
  (∀ s src r, Names src r → ¬ s.Violates ⟨[r], [], none⟩ → s.value [] r = 0 →
    s.params.debugPrototype = false →
    exec (.mswt src) s = .fault (.hltDisabled s.pc))

/-- R198: an index of 2 or more is UndefinedVirtualFunction. -/
def Obligations.UndefinedVirtualFunctionsFault : Prop :=
  (∀ s index, 2 ≤ index.toNat → exec (.mswti index) s = .fault (.undefinedVirtualFunction s.pc index)) ∧
  (∀ s src r, Names src r → ¬ s.Violates ⟨[r], [], none⟩ → 2 ≤ (s.value [] r).toNat →
    exec (.mswt src) s = .fault (.undefinedVirtualFunction s.pc (s.value [] r)))

/-- R195, R196: quotient and remainder, the pc from register 9; register 9 and the RAM unchanged; the registers of
DIV_CLOBBERS hold no value any more. Nothing is said of what their fields have. -/
def Obligations.DivGivesQuotientAndRemainder : Prop :=
  (∀ s, ¬ s.Violates ⟨divReads, divWrites, none⟩ → s.value [0] 1 ≠ 0 →
    ∃ t, exec (.mswti 1) s = .next t ∧
      (s.value [] 0).toNat = (s.value [0] 1).toNat * (t.reg 2).toNat + (t.reg 0).toNat ∧
      (t.reg 0).toNat < (s.value [0] 1).toNat ∧ t.pc = s.value [0, 1] 9 ∧
      t.isWritten 0 = true ∧ t.isWritten 2 = true ∧
      (∀ r, r ∈ [1, 3, 4, 5, 6, 7, 8] → t.isWritten r = false) ∧
      Frame s { t with freeCount := s.freeCount + s.drawn divReads } divReads divWrites none ∧
      SlotOver s t none) ∧
  (∀ s src r, Names src r → ¬ s.Violates ⟨r :: divReads, divWrites, none⟩ → s.value [] r = 1 →
    s.value [r, 0] 1 ≠ 0 →
    ∃ t, exec (.mswt src) s = .next t ∧
      (s.value [r] 0).toNat = (s.value [r, 0] 1).toNat * (t.reg 2).toNat + (t.reg 0).toNat ∧
      (t.reg 0).toNat < (s.value [r, 0] 1).toNat ∧ t.pc = s.value [r, 0, 1] 9 ∧
      t.isWritten 0 = true ∧ t.isWritten 2 = true ∧
      (∀ r, r ∈ [1, 3, 4, 5, 6, 7, 8] → t.isWritten r = false) ∧
      Frame s { t with freeCount := s.freeCount + s.drawn (r :: divReads) } (r :: divReads) divWrites none ∧
      SlotOver s t none)

/-- The model's form of R196's "unspecified" (log entry 8): after `div`, invoked by `mswti` or by `mswt`, the fields of
the seven registers of DIV_CLOBBERS have the next seven free values after those of the reads, in order. -/
def Obligations.DivLeavesFreeValues : Prop :=
  ∀ (i : Instr) (s t : State) (reads : List Reg),
    (i = .mswti 1 ∧ reads = divReads ∨
      ∃ src r, i = .mswt src ∧ Names src r ∧ s.value [] r = 1 ∧ reads = r :: divReads) →
    exec i s = .next t →
    t.reg 1 = Config.freeValue (s.freeCount + s.drawn reads) ∧
    t.reg 3 = Config.freeValue (s.freeCount + s.drawn reads + 1) ∧
    t.reg 4 = Config.freeValue (s.freeCount + s.drawn reads + 2) ∧
    t.reg 5 = Config.freeValue (s.freeCount + s.drawn reads + 3) ∧
    t.reg 6 = Config.freeValue (s.freeCount + s.drawn reads + 4) ∧
    t.reg 7 = Config.freeValue (s.freeCount + s.drawn reads + 5) ∧
    t.reg 8 = Config.freeValue (s.freeCount + s.drawn reads + 6) ∧
    t.freeCount = s.freeCount + s.drawn reads + 7

/-- The model's form of R197's outcome `hang` (log entry 9): `div` by zero is carried in the fault outcome as
`Fault.hang`, and a machine that hangs keeps its state, makes no further step and is never final. -/
def Obligations.DivByZeroHangs : Prop :=
  (∀ s, ¬ s.Violates ⟨divReads, divWrites, none⟩ → s.value [0] 1 = 0 →
    exec (.mswti 1) s = .fault (.hang s.pc)) ∧
  (∀ s src r, Names src r → ¬ s.Violates ⟨r :: divReads, divWrites, none⟩ → s.value [] r = 1 →
    s.value [r, 0] 1 = 0 → exec (.mswt src) s = .fault (.hang s.pc)) ∧
  ∀ s pc, s.Running → step s = .fault (.hang pc) → ∀ n, advanceBy n s = s ∧ ¬ (advanceBy n s).Final

/-! ## Reading registers -/

/-- R22, R37: a register written reads back as the value last written, whatever has been read before. A register that
holds no value reads as a free value, newly drawn at each read of an instruction and of the instructions after it: the
model's form of that is the counter, log entries 1 and 8. -/
def Obligations.RegistersReadBackOrGiveFreshValues : Prop :=
  (∀ (s : State) r v before, (s.setReg r v).value before r = v) ∧
  (∀ (s : State) q r v before, q ≠ r → s.isWritten q = true → (s.setReg r v).value before q = s.reg q) ∧
  (∀ (s : State) before q, s.isWritten q = false →
    s.value before q = Config.freeValue (s.freeCount + s.drawn before) ∧
    ∀ more, s.drawn before < s.drawn (before ++ q :: more)) ∧
  ∀ (i : Instr) (s t : State) before q more, exec i s = .next t → (touches i s).reads = before ++ q :: more →
    s.isWritten q = false → s.freeCount + s.drawn before < t.freeCount

/-- R37 and R196 as the model takes them (log entry 1): a read of a register that holds no value stops nothing, it draws
a free value. Where the other treatment of R37 reports UnwrittenRegister, the payload of R222 is the pc and a register
read that holds no value, and the instruction goes on, but for `mswti` and `mswt`, of which
`WellFormedInstructionsComplete` says where they stop; an instruction that reads no such register draws none but the
seven of a `div`; and the field of a register that holds no value is read by no instruction. -/
def Obligations.UnwrittenReadsStopNothing : Prop :=
  (∀ i s pc r, unwrittenRead i s = some (pc, r) →
    pc = s.pc ∧ r ∈ (touches i s).reads ∧ s.isWritten r = false ∧
    ((∃ index, i = .mswti index ∨ i = .mswt index) ∨ ∃ t, exec i s = .next t ∧ s.freeCount < t.freeCount)) ∧
  (∀ i s t, exec i s = .next t → unwrittenRead i s = none →
    t.freeCount = s.freeCount + if (touches i s).writes = divWrites then 7 else 0) ∧
  ∀ (i : Instr) (s : State) (r : Reg) (v : Word12), s.isWritten r = false →
    exec i { s with regs := s.regs.set r v } =
      match exec i s with
      | .next t => .next (if r ∈ (touches i s).writes then t else { t with regs := t.regs.set r v })
      | .fault f => .fault f
      | .refused x => .refused x

/-! ## Faults and hazards, over all instructions -/

/-- R91, R223: InvalidRegister is raised exactly when a register field holds 10 or more, and carries the first such
field. -/
def Obligations.InvalidRegisterExactlyOnBadFields : Prop :=
  ∀ i s n, exec i s = .fault (.invalidRegister s.pc n) ↔
    i.regFields.find? (fun n => !namesReg n) = some n

/-- R258, R260: a well-formed instruction raises HazardViolation exactly when it violates a RAM shadow, and then the
operation named is one whose shadow forbids it. -/
def Obligations.HazardViolationExactlyInForbiddenShadows : Prop :=
  ∀ i s, i.wellFormed = true →
    ((∃ op, exec i s = .fault (.hazardViolation s.pc op)) ↔ s.Violates (touches i s)) ∧
    ∀ op, exec i s = .fault (.hazardViolation s.pc op) →
      s.InShadowOf op ∧ ShadowForbids s.params.hazardPolicy (touches i s) op

/-- R258: under the strict policy a RAM instruction in any shadow, and a `div` in the shadow of any load or of a
`store` whose value register is not register 9, raise HazardViolation. -/
def Obligations.StrictShadowForbidsRamAndDiv : Prop :=
  (∀ i s, i.wellFormed = true → (touches i s).access ≠ none → s.params.hazardPolicy = .strict →
    ¬ s.NoShadow → ∃ op, s.InShadowOf op ∧ exec i s = .fault (.hazardViolation s.pc op)) ∧
  (∀ s op, s.InShadowOf op → ((∃ d o a, op = .load d o a) ∨ ∃ r a, r ≠ 9 ∧ op = .store (some r) a) →
    ∃ op', s.InShadowOf op' ∧ exec (.mswti 1) s = .fault (.hazardViolation s.pc op'))

/-- R260: under the other policy, right after a store, a load of the same address is a violation and one of another
address, and any other store, is not. -/
def Obligations.DependencyOnlyForbidsTheSameAddress : Prop :=
  ∀ s a, s.params.hazardPolicy = .dependencyOnly → s.shadow.last = some (.store none a) →
    s.shadow.beforeLast = none →
    (∀ dst d, Names dst d → exec (.loadi a dst) s = .fault (.hazardViolation s.pc (.store none a))) ∧
    (∀ b dst d, Names dst d → b ≠ a → ∃ t, exec (.loadi b dst) s = .next t) ∧
    ∀ v b, ∃ t, exec (.storei v b) s = .next t

/-- No instruction is refused: every one has a meaning, on every state. -/
def Obligations.NoInstructionIsRefused : Prop :=
  (∀ i s r, exec i s ≠ .refused r) ∧ ∀ s r, step s ≠ .refused r

/-- R222, closed: a well-formed instruction that no shadow forbids completes, whatever registers hold a value, but for
`mswti` and `mswt`, which stop only for an index of 2 or more, a disabled `hlt`, or a division by zero. -/
def Obligations.WellFormedInstructionsComplete : Prop :=
  ∀ i s, i.wellFormed = true → ¬ s.Violates (touches i s) →
    (∃ t, exec i s = .next t) ∨
    (∃ index before, (i = .mswti index ∧ before = [] ∨
        ∃ src, i = .mswt src ∧ index = s.value [] (regIn src) ∧ before = [regIn src]) ∧
      ((2 ≤ index.toNat ∧ exec i s = .fault (.undefinedVirtualFunction s.pc index)) ∨
        (index = 0 ∧ s.params.debugPrototype = false ∧ exec i s = .fault (.hltDisabled s.pc)) ∨
        (index = 1 ∧ s.value (before ++ [0]) 1 = 0 ∧ exec i s = .fault (.hang s.pc))))

/-! ## Whole-machine rules -/

/-- R50, R171: only `storei` and `store` change the RAM, and only the word at the address in their second field. -/
def Obligations.OnlyStoresChangeTheRam : Prop :=
  ∀ i s t, exec i s = .next t →
    ∀ key, (∀ a, storesTo i = some a → key / 4 ≠ a.toNat) → t.ramByte key = s.ramByte key

/-- R32, R65, R13: no step changes a user ROM word or a parameter. -/
def Obligations.UserRomAndParametersAreConstant : Prop :=
  ∀ s t, step s = .next t → (∀ a, t.uromWord a = s.uromWord a) ∧ t.params = s.params

/-- R23, the writes: an instruction changes no register it is not listed as writing, and not whether it holds a
value. -/
def Obligations.InstructionsWriteOnlyListedRegisters : Prop :=
  ∀ i s t, exec i s = .next t → ∀ r, r ∉ (touches i s).writes →
    t.reg r = s.reg r ∧ t.isWritten r = s.isWritten r

/-- R23, the reads ("No other implicit access exists"): another value in a register a well-formed instruction is not
listed as reading changes nothing of what the instruction does: the outcome is the same, and the next state differs
in that register alone, and there only if the instruction does not write it. -/
def Obligations.InstructionsReadOnlyListedRegisters : Prop :=
  ∀ i s r v, i.wellFormed = true → r ∉ (touches i s).reads →
    exec i (s.setReg r v) =
      match exec i s with
      | .next t => .next (if r ∈ (touches i s).writes then t else t.setReg r v)
      | .fault f => .fault f
      | .refused x => .refused x

/-- R28, R29: every instruction that does not transfer control goes to the next word, modulo 4096. -/
def Obligations.PcAdvancesUnlessControlIsTransferred : Prop :=
  ∀ i s t, isControl i = false → exec i s = .next t → PcAdvanced s t

/-- R235: a running machine comes to be halted only by executing `hlt` on a debug prototype. -/
def Obligations.OnlyHltHalts : Prop :=
  ∀ s t, s.halted = false → step s = .next t → t.halted = true →
    s.params.debugPrototype = true ∧ ∃ i, decodeWord (s.uromWord s.pc) = some i ∧
      (i = .mswti 0 ∨ ∃ src r, i = .mswt src ∧ Names src r ∧ s.value [] r = 0)

/-- R194, R221: a halted machine and a faulted one stay as they are for ever; the model's form of it is log
entry 10. -/
def Obligations.HaltedAndFaultedMachinesStay : Prop :=
  ∀ s n, s.halted = true ∨ s.faultMark ≠ none → advanceBy n s = s

/-- R221: a fault writes nothing but the fault mark, which no later step clears; the state is never final. -/
def Obligations.FaultsLeaveOnlyTheMark : Prop :=
  ∀ s f, s.faultMark = none → step s = .fault f → (∀ pc, f ≠ .hang pc) →
    ∀ n, advanceBy (n + 1) s = { s with faultMark := some f } ∧ ¬ (advanceBy (n + 1) s).Final

/-! ## ZAsm -/

/-- R101, R106: a `sync.` load or store is the instruction's own word and two `nop` words; on another instruction
`sync.` is not defined, and that the model refuses it is its own choice, log entry 14. -/
def Obligations.SyncAddsTwoNops : Prop :=
  ∀ tags addr sel f s ws, Asm.Item.words tags addr (.instr false sel f s) = .ok ws →
    Asm.Item.words tags addr (.instr true sel f s) =
      if Asm.isRamSel sel then .ok (ws ++ [0x00000000, 0x00000000]) else .error .syncNotRam

/-- R103, R104: `@cmp` is 8, `@ret` is 9, `@skipAddr` is the instruction's address and 2, in 12 bits. -/
def Obligations.OperandNamesHaveTheirValues : Prop :=
  ∀ tags addr, Asm.Operand.field tags addr .cmp = .ok 0x008 ∧ Asm.Operand.field tags addr .ret = .ok 0x009 ∧
    ∃ v, Asm.Operand.field tags addr .skipAddr = .ok v ∧ v.toNat = (addr + 2) % 4096

/-- R97, R105: the image has one word for each address the items take, and a tag's address is the number of words
before it. Of a tag that no instruction follows that is the model's choice, log entry 16. -/
def Obligations.AddressesAreCountedFromZero : Prop :=
  (∀ items ws, Asm.assemble items = .ok ws → ws.length = Asm.sizeOf items) ∧
  (∀ before name after ws, Asm.assemble (before ++ .tagDef name :: after) = .ok ws →
    (Asm.tagsFrom 0 (before ++ .tagDef name :: after)).lookup name = some (Asm.sizeOf before))

/-- R87, R98, R99: the 32 mnemonics, each with the selector of its row; no other name is one; and the selector decodes,
with any operand fields, to an instruction of that selector. -/
def Obligations.MnemonicsFixTheSelector : Prop :=
  Asm.selectorOf ['n', 'o', 'p'] = some 0x00 ∧
  Asm.selectorOf ['s', 'e', 't', 'i'] = some 0x01 ∧
  Asm.selectorOf ['s', 'e', 't'] = some 0x11 ∧
  Asm.selectorOf ['a', 'd', 'd', 'i'] = some 0x02 ∧
  Asm.selectorOf ['a', 'd', 'd'] = some 0x12 ∧
  Asm.selectorOf ['m', 'u', 'l', 'i'] = some 0x03 ∧
  Asm.selectorOf ['m', 'u', 'l'] = some 0x13 ∧
  Asm.selectorOf ['s', 'u', 'b', 'i'] = some 0x04 ∧
  Asm.selectorOf ['s', 'u', 'b'] = some 0x14 ∧
  Asm.selectorOf ['s', 'l', 'i'] = some 0x05 ∧
  Asm.selectorOf ['s', 'l'] = some 0x15 ∧
  Asm.selectorOf ['s', 'r', 'i'] = some 0x06 ∧
  Asm.selectorOf ['s', 'r'] = some 0x16 ∧
  Asm.selectorOf ['a', 'n', 'd', 'i'] = some 0x07 ∧
  Asm.selectorOf ['a', 'n', 'd'] = some 0x17 ∧
  Asm.selectorOf ['o', 'r', 'i'] = some 0x08 ∧
  Asm.selectorOf ['o', 'r'] = some 0x18 ∧
  Asm.selectorOf ['n', 'o', 't'] = some 0x09 ∧
  Asm.selectorOf ['m', 's', 'w', 't', 'i'] = some 0x0A ∧
  Asm.selectorOf ['m', 's', 'w', 't'] = some 0x1A ∧
  Asm.selectorOf ['j', 'm', 'p', 'i'] = some 0x0C ∧
  Asm.selectorOf ['j', 'm', 'p'] = some 0x1C ∧
  Asm.selectorOf ['z', 'j', 'm', 'p', 'i'] = some 0x0D ∧
  Asm.selectorOf ['z', 'j', 'm', 'p'] = some 0x1D ∧
  Asm.selectorOf ['l', 'j', 'm', 'p', 'i'] = some 0x0E ∧
  Asm.selectorOf ['l', 'j', 'm', 'p'] = some 0x1E ∧
  Asm.selectorOf ['g', 'j', 'm', 'p', 'i'] = some 0x0F ∧
  Asm.selectorOf ['g', 'j', 'm', 'p'] = some 0x1F ∧
  Asm.selectorOf ['l', 'o', 'a', 'd', 'i'] = some 0x20 ∧
  Asm.selectorOf ['l', 'o', 'a', 'd'] = some 0x30 ∧
  Asm.selectorOf ['s', 't', 'o', 'r', 'e', 'i'] = some 0x21 ∧
  Asm.selectorOf ['s', 't', 'o', 'r', 'e'] = some 0x31 ∧
  (∀ name sel, Asm.selectorOf name = some sel → sel ∈ legalSelectors ∧
    ∀ name', Asm.selectorOf name' = some sel → name' = name) ∧
  ∀ name sel f s, Asm.selectorOf name = some sel → ∃ i, decodeWord (packSel sel f s) = some i ∧ i.selector = sel

/-- R105, R253: a program of at most 4096 words stands in the user ROM from address 0, word for word, and nothing
else of the machine changes: the model's loader, log entry 5. -/
def Obligations.LoadedProgramsAreFetched : Prop :=
  ∀ (s : State) (image : List Word32), image.length ≤ 4096 →
    (∀ (k : Nat) (h : k < image.length), (s.loadProgram image).uromWord (BitVec.ofNat 12 k) = image[k]) ∧
    (∀ a : Word12, image.length ≤ a.toNat → (s.loadProgram image).uromWord a = s.uromWord a) ∧
    (Memory.wf s.urom = true → Memory.wf (s.loadProgram image).urom = true) ∧
    { s.loadProgram image with urom := s.urom } = s
end

