-- ==== Sys2Proof/Laws/Memory.lean ====
section
/-! SUPPORT. What a memory reads after a write, and that every memory operation keeps the canonical form. -/

namespace Sys2Proof.Machine

theorem Memory.find_put (m : Memory) (key q : Nat) (b : Byte) :
    Memory.find (Memory.put m key b) q = if q = key then some b else Memory.find m q := by
  induction m with
  | nil => simp only [Memory.put, Memory.find, eq_comm]
  | cons c m ih =>
    obtain ⟨k, v⟩ := c
    simp only [Memory.put]
    split
    · simp only [Memory.find, eq_comm]
    · split
      · simp only [Memory.find]; split_ifs <;> first | rfl | omega
      · simp only [Memory.find, ih]; split_ifs <;> first | rfl | omega

theorem Memory.rising_mono {lo hi : Nat} (h : lo ≤ hi) : ∀ {m : Memory},
    Memory.rising hi m = true → Memory.rising lo m = true
  | [], _ => rfl
  | (k, v) :: m, hm => by
    simp only [Memory.rising, Bool.and_eq_true, decide_eq_true_eq] at hm ⊢
    exact ⟨by omega, hm.2⟩

theorem Memory.rising_put {low key : Nat} (b : Byte) : ∀ {m : Memory}, low ≤ key →
    Memory.rising low m = true → Memory.rising low (Memory.put m key b) = true
  | [], hk, _ => by simp [Memory.put, Memory.rising, hk]
  | (k, v) :: m, hk, hm => by
    simp only [Memory.rising, Bool.and_eq_true, decide_eq_true_eq] at hm
    simp only [Memory.put]
    split
    · simp only [Memory.rising, Bool.and_eq_true, decide_eq_true_eq]
      exact ⟨hk, by omega, hm.2⟩
    · split
      · rename_i _ he
        subst he
        simp only [Memory.rising, Bool.and_eq_true, decide_eq_true_eq]
        exact ⟨hk, hm.2⟩
      · simp only [Memory.rising, Bool.and_eq_true, decide_eq_true_eq]
        exact ⟨hm.1, Memory.rising_put b (by omega) hm.2⟩

theorem Memory.mem_put {m : Memory} {key : Nat} {b : Byte} {c : Host.Cell}
    (h : c ∈ Memory.put m key b) : c = (key, b) ∨ c ∈ m := by
  induction m with
  | nil => simpa [Memory.put] using h
  | cons d m ih =>
    obtain ⟨k, v⟩ := d
    simp only [Memory.put] at h
    split at h
    · simpa using h
    · split at h
      · rcases List.mem_cons.1 h with h | h <;> simp [h]
      · rcases List.mem_cons.1 h with h | h
        · simp [h]
        · rcases ih h with h | h <;> simp [h]

/-- Listing a byte of one of the 4096 words keeps the canonical form. -/
theorem Memory.wf_put {m : Memory} {key : Nat} (b : Byte) (hk : key < 4 * 4096) (h : Memory.wf m = true) :
    Memory.wf (Memory.put m key b) = true := by
  simp only [Memory.wf, Bool.and_eq_true, List.all_eq_true, decide_eq_true_eq] at h ⊢
  refine ⟨Memory.rising_put b (Nat.zero_le _) h.1, fun c hc => ?_⟩
  rcases Memory.mem_put hc with rfl | hc
  · exact hk
  · exact h.2 c hc

theorem byteKey_lt (a : Word12) {i : Nat} (h : i < 4) : byteKey a i < 4 * 4096 := by
  have := a.isLt
  simp only [byteKey]; omega

theorem byteKey_inj {a b : Word12} {i j : Nat} (hi : i < 4) (hj : j < 4) :
    byteKey a i = byteKey b j ↔ a = b ∧ i = j := by
  simp only [byteKey, BitVec.toNat_eq]; omega

/-- Writing a word keeps the canonical form. -/
theorem Memory.wf_putWord {m : Memory} (a : Word12) (w : Word32) (h : Memory.wf m = true) :
    Memory.wf (Memory.putWord m a w) = true :=
  Memory.wf_put _ (byteKey_lt a (by decide)) <| Memory.wf_put _ (byteKey_lt a (by decide)) <|
    Memory.wf_put _ (byteKey_lt a (by decide)) <| Memory.wf_put _ (byteKey_lt a (by decide)) h

/-- Writing words keeps the canonical form. -/
theorem Memory.wf_putWords (ws : List Word32) : ∀ {m : Memory} (a : Word12), Memory.wf m = true →
    Memory.wf (Memory.putWords m a ws) = true := by
  induction ws with
  | nil => intro m a h; exact h
  | cons w ws ih => intro m a h; exact ih (a + 1) (Memory.wf_putWord a w h)

/-- What is listed at a key after a word is written. -/
theorem Memory.find_putWord (m : Memory) (a : Word12) (w : Word32) (q : Nat) :
    Memory.find (Memory.putWord m a w) q =
      if q = byteKey a 3 then some (w.extractLsb' 0 8)
      else if q = byteKey a 2 then some (w.extractLsb' 8 8)
      else if q = byteKey a 1 then some (w.extractLsb' 16 8)
      else if q = byteKey a 0 then some (w.extractLsb' 24 8)
      else Memory.find m q := by
  simp only [Memory.putWord, Memory.find_put]

/-- A byte of another word reads as before. -/
theorem Memory.byteAt_putWord_of_ne (blank : Word12 → Word32) (m : Memory) (a : Word12) (w : Word32) {q : Nat}
    (h : q / 4 ≠ a.toNat) : Memory.byteAt blank (Memory.putWord m a w) q = Memory.byteAt blank m q := by
  have hne : ∀ i, i < 4 → q ≠ byteKey a i := by
    intro i hi he
    apply h
    simp only [byteKey] at he
    omega
  simp [Memory.byteAt, Memory.find_putWord, hne]

/-- The four bytes of a word put together again give the word. -/
theorem wordOfBytes_extract (w : Word32) :
    wordOfBytes (w.extractLsb' 24 8) (w.extractLsb' 16 8) (w.extractLsb' 8 8) (w.extractLsb' 0 8) = w := by
  apply BitVec.eq_of_toNat_eq
  have := w.isLt
  simp only [wordOfBytes, BitVec.toNat_append, BitVec.extractLsb'_toNat, Nat.shiftRight_eq_div_pow]
  rw [← Nat.shiftLeft_add_eq_or_of_lt (Nat.mod_lt _ (by decide)),
    ← Nat.shiftLeft_add_eq_or_of_lt (Nat.mod_lt _ (by decide)),
    ← Nat.shiftLeft_add_eq_or_of_lt (Nat.mod_lt _ (by decide))]
  simp only [Nat.shiftLeft_eq]
  omega

/-- The word at an address after a word is written (R57). -/
theorem Memory.wordAt_putWord (blank : Word12 → Word32) (m : Memory) (a b : Word12) (w : Word32) :
    Memory.wordAt blank (Memory.putWord m a w) b = if b = a then w else Memory.wordAt blank m b := by
  split
  · rename_i h
    subst h
    have h3 : ∀ i j, i < 4 → j < 4 → (byteKey b i = byteKey b j) = (i = j) := fun i j hi hj => by
      rw [byteKey_inj hi hj]; simp
    simp only [Memory.wordAt, Memory.byteAt, Memory.find_putWord]
    norm_num [h3, wordOfBytes_extract]
  · rename_i h
    have hb : ∀ i, i < 4 → byteKey b i / 4 ≠ a.toNat := by
      intro i hi he
      apply h
      rw [BitVec.toNat_eq, ← he]
      simp only [byteKey]; omega
    simp only [Memory.wordAt, Memory.byteAt_putWord_of_ne _ _ _ _ (hb _ (by decide : 0 < 4)),
      Memory.byteAt_putWord_of_ne _ _ _ _ (hb _ (by decide : 1 < 4)),
      Memory.byteAt_putWord_of_ne _ _ _ _ (hb _ (by decide : 2 < 4)),
      Memory.byteAt_putWord_of_ne _ _ _ _ (hb _ (by decide : 3 < 4))]

end Sys2Proof.Machine
end

