-- ==== Sys2Proof/Laws/State.lean ====
section
/-! SUPPORT. One lemma for each field and each named update of State. -/

namespace Sys2Proof.Machine

variable (s : State) (r : Reg) (v a : Word12) (op : Option RamOp)

/-! ## setReg -/

@[simp] theorem State.setReg_pc : (s.setReg r v).pc = s.pc := rfl
@[simp] theorem State.setReg_ram : (s.setReg r v).ram = s.ram := rfl
@[simp] theorem State.setReg_urom : (s.setReg r v).urom = s.urom := rfl
@[simp] theorem State.setReg_halted : (s.setReg r v).halted = s.halted := rfl
@[simp] theorem State.setReg_faultMark : (s.setReg r v).faultMark = s.faultMark := rfl
@[simp] theorem State.setReg_shadow : (s.setReg r v).shadow = s.shadow := rfl
@[simp] theorem State.setReg_params : (s.setReg r v).params = s.params := rfl
@[simp] theorem State.setReg_freeCount : (s.setReg r v).freeCount = s.freeCount := rfl

theorem State.setReg_isWritten (q : Reg) :
    (s.setReg r v).isWritten q = if q = r then true else s.isWritten q := by
  simp only [State.isWritten, State.setReg, Fin.getElem_fin]
  rw [Vector.getElem_set]
  simp only [Fin.ext_iff, eq_comm]

/-- Reading a register after writing one (R22). -/
theorem State.setReg_reg (q : Reg) : (s.setReg r v).reg q = if q = r then v else s.reg q := by
  simp only [State.reg, State.setReg, Fin.getElem_fin]
  rw [Vector.getElem_set]
  simp only [Fin.ext_iff, eq_comm]

@[simp] theorem State.setReg_reg_same : (s.setReg r v).reg r = v := by simp [State.setReg_reg]

theorem State.setReg_reg_of_ne {q : Reg} (h : q ≠ r) : (s.setReg r v).reg q = s.reg q := by
  simp [State.setReg_reg, h]

/-! ## retire -/

@[simp] theorem State.retire_reg (q : Reg) : (s.retire op a).reg q = s.reg q := rfl
@[simp] theorem State.retire_regs : (s.retire op a).regs = s.regs := rfl
@[simp] theorem State.retire_isWritten (q : Reg) : (s.retire op a).isWritten q = s.isWritten q := rfl
@[simp] theorem State.retire_written : (s.retire op a).written = s.written := rfl
@[simp] theorem State.retire_pc : (s.retire op a).pc = a := rfl
@[simp] theorem State.retire_ram : (s.retire op a).ram = s.ram := rfl
@[simp] theorem State.retire_urom : (s.retire op a).urom = s.urom := rfl
@[simp] theorem State.retire_halted : (s.retire op a).halted = s.halted := rfl
@[simp] theorem State.retire_faultMark : (s.retire op a).faultMark = s.faultMark := rfl
@[simp] theorem State.retire_last : (s.retire op a).shadow.last = op := rfl
@[simp] theorem State.retire_beforeLast : (s.retire op a).shadow.beforeLast = s.shadow.last := rfl
@[simp] theorem State.retire_params : (s.retire op a).params = s.params := rfl
@[simp] theorem State.retire_freeCount : (s.retire op a).freeCount = s.freeCount := rfl

/-! ## memWrite -/

@[simp] theorem State.memWrite_reg (q : Reg) : (s.memWrite a v).reg q = s.reg q := rfl
@[simp] theorem State.memWrite_regs : (s.memWrite a v).regs = s.regs := rfl
@[simp] theorem State.memWrite_isWritten (q : Reg) : (s.memWrite a v).isWritten q = s.isWritten q := rfl
@[simp] theorem State.memWrite_written : (s.memWrite a v).written = s.written := rfl
@[simp] theorem State.memWrite_pc : (s.memWrite a v).pc = s.pc := rfl
@[simp] theorem State.memWrite_ram : (s.memWrite a v).ram = Memory.putWord s.ram a (zext32 v) := rfl
@[simp] theorem State.memWrite_urom : (s.memWrite a v).urom = s.urom := rfl
@[simp] theorem State.memWrite_halted : (s.memWrite a v).halted = s.halted := rfl
@[simp] theorem State.memWrite_faultMark : (s.memWrite a v).faultMark = s.faultMark := rfl
@[simp] theorem State.memWrite_shadow : (s.memWrite a v).shadow = s.shadow := rfl
@[simp] theorem State.memWrite_params : (s.memWrite a v).params = s.params := rfl
@[simp] theorem State.memWrite_freeCount : (s.memWrite a v).freeCount = s.freeCount := rfl

/-! ## halt -/

@[simp] theorem State.halt_reg (q : Reg) : s.halt.reg q = s.reg q := rfl
@[simp] theorem State.halt_regs : s.halt.regs = s.regs := rfl
@[simp] theorem State.halt_isWritten (q : Reg) : s.halt.isWritten q = s.isWritten q := rfl
@[simp] theorem State.halt_written : s.halt.written = s.written := rfl
@[simp] theorem State.halt_pc : s.halt.pc = s.pc := rfl
@[simp] theorem State.halt_ram : s.halt.ram = s.ram := rfl
@[simp] theorem State.halt_urom : s.halt.urom = s.urom := rfl
@[simp] theorem State.halt_halted : s.halt.halted = true := rfl
@[simp] theorem State.halt_faultMark : s.halt.faultMark = s.faultMark := rfl
@[simp] theorem State.halt_last : s.halt.shadow.last = none := rfl
@[simp] theorem State.halt_beforeLast : s.halt.shadow.beforeLast = s.shadow.last := rfl
@[simp] theorem State.halt_params : s.halt.params = s.params := rfl
@[simp] theorem State.halt_freeCount : s.halt.freeCount = s.freeCount := rfl

/-! ## drawReg and drawRegs -/

@[simp] theorem State.drawReg_pc : (s.drawReg r).pc = s.pc := rfl
@[simp] theorem State.drawReg_ram : (s.drawReg r).ram = s.ram := rfl
@[simp] theorem State.drawReg_urom : (s.drawReg r).urom = s.urom := rfl
@[simp] theorem State.drawReg_halted : (s.drawReg r).halted = s.halted := rfl
@[simp] theorem State.drawReg_faultMark : (s.drawReg r).faultMark = s.faultMark := rfl
@[simp] theorem State.drawReg_shadow : (s.drawReg r).shadow = s.shadow := rfl
@[simp] theorem State.drawReg_params : (s.drawReg r).params = s.params := rfl
@[simp] theorem State.drawReg_freeCount : (s.drawReg r).freeCount = s.freeCount + 1 := rfl

theorem State.drawReg_reg (q : Reg) :
    (s.drawReg r).reg q = if q = r then Config.freeValue s.freeCount else s.reg q :=
  State.setReg_reg s r _ q

theorem State.drawReg_isWritten (q : Reg) :
    (s.drawReg r).isWritten q = if q = r then false else s.isWritten q := by
  simp only [State.isWritten, State.drawReg, Fin.getElem_fin]
  rw [Vector.getElem_set]
  simp only [Fin.ext_iff, eq_comm]

/-- Everything `drawRegs` does but to the registers. -/
theorem State.drawRegs_others (rs : List Reg) (s : State) :
    (s.drawRegs rs).pc = s.pc ∧ (s.drawRegs rs).ram = s.ram ∧ (s.drawRegs rs).urom = s.urom ∧
    (s.drawRegs rs).halted = s.halted ∧ (s.drawRegs rs).faultMark = s.faultMark ∧
    (s.drawRegs rs).shadow = s.shadow ∧ (s.drawRegs rs).params = s.params ∧
    (s.drawRegs rs).freeCount = s.freeCount + rs.length := by
  induction rs generalizing s with
  | nil => simp [State.drawRegs]
  | cons r rs ih =>
    obtain ⟨h1, h2, h3, h4, h5, h6, h7, h8⟩ := ih (s.drawReg r)
    exact ⟨h1, h2, h3, h4, h5, h6, h7, by rw [State.drawRegs, h8, List.length_cons]; simp; omega⟩

/-- `drawRegs` leaves the registers it does not name, and the ones it names hold no value. -/
theorem State.drawRegs_isWritten (rs : List Reg) (s : State) (q : Reg) :
    (s.drawRegs rs).isWritten q = if q ∈ rs then false else s.isWritten q := by
  induction rs generalizing s with
  | nil => simp [State.drawRegs]
  | cons r rs ih =>
    rw [State.drawRegs, ih, State.drawReg_isWritten]
    by_cases hq : q = r <;> simp [hq]

/-- `drawRegs` leaves the registers it does not name. -/
theorem State.drawRegs_reg_of_notMem {q : Reg} (rs : List Reg) (s : State) (h : q ∉ rs) :
    (s.drawRegs rs).reg q = s.reg q := by
  induction rs generalizing s with
  | nil => rfl
  | cons r rs ih =>
    rw [List.mem_cons, not_or] at h
    rw [State.drawRegs, ih _ h.2, State.drawReg_reg, if_neg h.1]

/-! ## divided -/

section

variable (n m ret : Word12)

@[simp] theorem State.divided_pc : (s.divided n m ret).pc = ret := rfl

@[simp] theorem State.divided_last : (s.divided n m ret).shadow.last = none := rfl

@[simp] theorem State.divided_ram : (s.divided n m ret).ram = s.ram := by
  simp [State.divided, State.drawRegs_others Config.divClobbers s]

@[simp] theorem State.divided_urom : (s.divided n m ret).urom = s.urom := by
  simp [State.divided, State.drawRegs_others Config.divClobbers s]

@[simp] theorem State.divided_halted : (s.divided n m ret).halted = s.halted := by
  simp [State.divided, State.drawRegs_others Config.divClobbers s]

@[simp] theorem State.divided_faultMark : (s.divided n m ret).faultMark = s.faultMark := by
  simp [State.divided, State.drawRegs_others Config.divClobbers s]

@[simp] theorem State.divided_beforeLast : (s.divided n m ret).shadow.beforeLast = s.shadow.last := by
  simp [State.divided, State.drawRegs_others Config.divClobbers s]

@[simp] theorem State.divided_params : (s.divided n m ret).params = s.params := by
  simp [State.divided, State.drawRegs_others Config.divClobbers s]

@[simp] theorem State.divided_freeCount : (s.divided n m ret).freeCount = s.freeCount + 7 :=
  (State.drawRegs_others Config.divClobbers s).2.2.2.2.2.2.2

/-- The remainder (R195). -/
@[simp] theorem State.divided_remainder :
    (s.divided n m ret).reg 0 = BitVec.ofNat 12 (n.toNat % m.toNat) := by simp [State.divided]

/-- The quotient (R195). -/
@[simp] theorem State.divided_quotient :
    (s.divided n m ret).reg 2 = BitVec.ofNat 12 (n.toNat / m.toNat) := by simp [State.divided, State.setReg_reg]

/-- Register 9 is unchanged (R196). -/
@[simp] theorem State.divided_ret : (s.divided n m ret).reg 9 = s.reg 9 := by
  have h : (9 : Reg) ∉ Config.divClobbers := by decide
  simp [State.divided, State.setReg_reg, State.drawRegs_reg_of_notMem _ s h]

/-- The registers of DIV_CLOBBERS hold no value, the two results do, register 9 does if it did (R196). -/
theorem State.divided_isWritten (q : Reg) :
    (s.divided n m ret).isWritten q =
      if q = 0 ∨ q = 2 then true else if q ∈ Config.divClobbers then false else s.isWritten q := by
  simp only [State.divided, State.retire_isWritten, State.setReg_isWritten, State.drawRegs_isWritten]
  by_cases h0 : q = 0 <;> by_cases h2 : q = 2 <;> simp [h0, h2]

end

/-! ## afterReads -/

variable (rs qs : List Reg)

@[simp] theorem State.afterReads_reg (q : Reg) : (s.afterReads rs).reg q = s.reg q := rfl
@[simp] theorem State.afterReads_regs : (s.afterReads rs).regs = s.regs := rfl
@[simp] theorem State.afterReads_isWritten (q : Reg) : (s.afterReads rs).isWritten q = s.isWritten q := rfl
@[simp] theorem State.afterReads_written : (s.afterReads rs).written = s.written := rfl
@[simp] theorem State.afterReads_pc : (s.afterReads rs).pc = s.pc := rfl
@[simp] theorem State.afterReads_ram : (s.afterReads rs).ram = s.ram := rfl
@[simp] theorem State.afterReads_urom : (s.afterReads rs).urom = s.urom := rfl
@[simp] theorem State.afterReads_halted : (s.afterReads rs).halted = s.halted := rfl
@[simp] theorem State.afterReads_faultMark : (s.afterReads rs).faultMark = s.faultMark := rfl
@[simp] theorem State.afterReads_shadow : (s.afterReads rs).shadow = s.shadow := rfl
@[simp] theorem State.afterReads_params : (s.afterReads rs).params = s.params := rfl
@[simp] theorem State.afterReads_freeCount : (s.afterReads rs).freeCount = s.freeCount + s.drawn rs := rfl
@[simp] theorem State.afterReads_drawn : (s.afterReads rs).drawn qs = s.drawn qs := rfl
@[simp] theorem State.afterReads_ramWord : (s.afterReads rs).ramWord a = s.ramWord a := rfl
@[simp] theorem State.afterReads_nil : s.afterReads [] = s := rfl

theorem State.drawn_append : s.drawn (rs ++ qs) = s.drawn rs + s.drawn qs := List.countP_append

/-- Reads after reads are the reads one after the other. -/
theorem State.afterReads_afterReads : (s.afterReads rs).afterReads qs = s.afterReads (rs ++ qs) := by
  simp only [State.afterReads, State.drawn_append, Nat.add_assoc]
  rfl

/-- Reading a register after other reads. -/
theorem State.afterReads_value : (s.afterReads rs).value qs r = s.value (rs ++ qs) r := by
  simp only [State.value, State.afterReads_isWritten, State.afterReads_reg, State.afterReads_freeCount,
    State.afterReads_drawn, State.drawn_append, Nat.add_assoc]

/-- A register that holds a value reads as it, whatever has been read before. -/
theorem State.value_of_isWritten (h : s.isWritten r = true) : s.value rs r = s.reg r := by simp [State.value, h]

end Sys2Proof.Machine
end

