-- ==== Sys2Proof/Laws/Ops.lean ====
section
/-! SUPPORT. One spec lemma for each shared operation, for what it answers in each case; and the inversion of `exec`:
the shapes a next state can have. -/

namespace Sys2Proof.Machine

/-! ## Register fields -/

theorem namesReg_iff {n : Word12} : namesReg n = true ↔ ∃ r, Names n r := by
  simp only [namesReg, decide_eq_true_eq, Names]
  exact ⟨fun h => ⟨⟨n.toNat, h⟩, rfl⟩, fun ⟨r, h⟩ => h ▸ r.isLt⟩

theorem Names.regIn_eq {n : Word12} {r : Reg} (h : Names n r) : regIn n = r := by
  have hlt : n.toNat < 10 := h ▸ r.isLt
  simp only [regIn, hlt, dif_pos]
  exact Fin.ext h

theorem names_regIn {n : Word12} (h : namesReg n = true) : Names n (regIn n) := by
  obtain ⟨r, hr⟩ := namesReg_iff.1 h
  rwa [hr.regIn_eq]

theorem withReg_of_names {s : State} {n : Word12} {r : Reg} (h : Names n r) (go : Reg → Result) :
    s.withReg n go = go r := by
  have hlt : n.toNat < 10 := h ▸ r.isLt
  simp only [State.withReg, regOf, hlt, dif_pos]
  congr 1
  exact Fin.ext h

theorem withReg_of_not_namesReg {s : State} {n : Word12} (h : namesReg n = false) (go : Reg → Result) :
    s.withReg n go = .fault (.invalidRegister s.pc n) := by
  simp only [namesReg, decide_eq_false_iff_not] at h
  simp [State.withReg, regOf, h, raise]

/-- `withReg` goes on with the register the field names, or raises InvalidRegister. -/
theorem withReg_cases (s : State) (n : Word12) (go : Reg → Result) :
    (∃ r, Names n r ∧ s.withReg n go = go r) ∨
      (namesReg n = false ∧ s.withReg n go = .fault (.invalidRegister s.pc n)) := by
  cases h : namesReg n
  · exact .inr ⟨rfl, withReg_of_not_namesReg h go⟩
  · obtain ⟨r, hr⟩ := namesReg_iff.1 h
    exact .inl ⟨r, hr, withReg_of_names hr go⟩

theorem withReg_eq_next {s t : State} {n : Word12} {go : Reg → Result} (h : s.withReg n go = .next t) :
    ∃ r, Names n r ∧ go r = .next t := by
  rcases withReg_cases s n go with ⟨r, hr, he⟩ | ⟨_, he⟩
  · exact ⟨r, hr, he ▸ h⟩
  · simp [he] at h

/-! ## The shadow -/

theorem accessConflicts_iff {p : HazardPolicy} {a : Access} {op : RamOp} :
    accessConflicts p a op = true ↔ AccessForbidden p a op := by
  cases p <;> cases a <;> cases op <;> simp [accessConflicts, AccessForbidden, eq_comm]

theorem conflicts_iff {p : HazardPolicy} {u : Uses} {op : RamOp} :
    u.conflicts p op = true ↔ ShadowForbids p u op := by
  simp only [Uses.conflicts, ShadowForbids, Bool.or_eq_true, Option.any_eq_true, accessConflicts_iff,
    List.contains_iff_mem, or_assoc]

/-- `violated` names an operation of the shadow that forbids the instruction, and finds none only if there is none. -/
theorem violated_cases (s : State) (u : Uses) :
    (∃ op, s.violated u = some op ∧ s.InShadowOf op ∧ ShadowForbids s.params.hazardPolicy u op) ∨
      (s.violated u = none ∧ ¬ s.Violates u) := by
  cases h : s.violated u with
  | some op =>
    refine .inl ⟨op, rfl, ?_⟩
    simp only [State.violated, Option.or_eq_some_iff, Option.filter_eq_some_iff] at h
    rcases h with ⟨h, hc⟩ | ⟨_, h, hc⟩
    · exact ⟨.inl h, conflicts_iff.1 hc⟩
    · exact ⟨.inr h, conflicts_iff.1 hc⟩
  | none =>
    refine .inr ⟨rfl, ?_⟩
    simp only [State.violated, Option.or_eq_none_iff, Option.filter_eq_none_iff] at h
    rintro ⟨op, hin | hin, hf⟩
    · exact h.1 op hin (conflicts_iff.2 hf)
    · exact h.2 op hin (conflicts_iff.2 hf)

theorem not_violates_of_violated_eq_none {s : State} {u : Uses} (h : s.violated u = none) : ¬ s.Violates u := by
  rcases violated_cases s u with ⟨_, he, _⟩ | ⟨_, hn⟩
  · simp [he] at h
  · exact hn

theorem violates_of_violated_eq_some {s : State} {u : Uses} {op : RamOp} (h : s.violated u = some op) :
    s.Violates u := by
  rcases violated_cases s u with ⟨op', _, hin, hf⟩ | ⟨he, _⟩
  · exact ⟨op', hin, hf⟩
  · simp [he] at h

theorem violated_eq_none_iff {s : State} {u : Uses} : s.violated u = none ↔ ¬ s.Violates u := by
  rcases violated_cases s u with ⟨op, he, hin, hf⟩ | ⟨he, hn⟩
  · simp only [he, reduceCtorEq, false_iff, not_not]
    exact ⟨op, hin, hf⟩
  · simp [he, hn]

/-- An instruction that no shadow forbids goes on. -/
theorem guarded_of_not_violates {s : State} {u : Uses} (h : ¬ s.Violates u) (go : State → Result) :
    s.guarded u go = go (s.afterReads u.reads) := by
  simp only [State.guarded, violated_eq_none_iff.2 h]

/-- `guarded` goes on, or raises HazardViolation with an operation that forbids the instruction. -/
theorem guarded_cases (s : State) (u : Uses) (go : State → Result) :
    (¬ s.Violates u ∧ s.guarded u go = go (s.afterReads u.reads)) ∨
      ∃ op, s.InShadowOf op ∧ ShadowForbids s.params.hazardPolicy u op ∧
        s.guarded u go = .fault (.hazardViolation s.pc op) := by
  rcases violated_cases s u with ⟨op, he, hin, hf⟩ | ⟨_, hn⟩
  · exact .inr ⟨op, hin, hf, by simp [State.guarded, he, raise]⟩
  · exact .inl ⟨hn, guarded_of_not_violates hn go⟩

theorem guarded_eq_next {s t : State} {u : Uses} {go : State → Result} (h : s.guarded u go = .next t) :
    ¬ s.Violates u ∧ go (s.afterReads u.reads) = .next t := by
  rcases guarded_cases s u go with ⟨hn, he⟩ | ⟨op, _, _, he⟩
  · exact ⟨hn, he ▸ h⟩
  · simp [he] at h

/-- A RAM instruction that goes on under the strict policy is in no shadow (R258 c). -/
theorem noShadow_of_not_violates {s : State} {u : Uses} {a : Access} (ha : u.access = some a)
    (hp : s.params.hazardPolicy = .strict) (h : ¬ s.Violates u) : s.NoShadow := by
  have key : ∀ op, ¬ s.InShadowOf op := fun op hin =>
    h ⟨op, hin, .inr (.inr ⟨a, ha, .inl hp⟩)⟩
  constructor
  · cases hl : s.shadow.last with
    | none => rfl
    | some op => exact absurd (.inl hl) (key op)
  · cases hl : s.shadow.beforeLast with
    | none => rfl
    | some op => exact absurd (.inr hl) (key op)

/-! ## The virtual functions -/

theorem divUses_reads : divUses.reads = divReads := rfl
theorem divUses_writes : divUses.writes = divWrites := by decide

/-- What a virtual function can answer. -/
theorem runVirtual_eq_next {index : Word12} {s t : State} (h : runVirtual index s = .next t) :
    (index = 0 ∧ s.params.debugPrototype = true ∧ t = s.halt) ∨
      (index = 1 ∧ ¬ s.Violates divUses ∧ s.value [0] 1 ≠ 0 ∧
        t = (s.afterReads divReads).divided (s.value [] 0) (s.value [0] 1) (s.value [0, 1] 9)) := by
  simp only [runVirtual] at h
  split_ifs at h with h0 h1
  · simp only [runHlt] at h
    split_ifs at h with hd
    · exact .inl ⟨h0, hd, by cases h; rfl⟩
    · cases h
  · obtain ⟨hn, h⟩ := guarded_eq_next h
    split_ifs at h with hz
    exact .inr ⟨h1, hn, hz, by cases h; rfl⟩
  · cases h

/-! ## The inversion of exec -/

/-- The shapes of a next state: the reads `read` of the instruction are done, and it has done its effect. -/
inductive NextShape (i : Instr) (s t : State) : Prop where
  | wrote (d : Reg) (v : Word12) (h : t = (s.afterReads (touches i s).reads).writeBack d v)
      (hw : (touches i s).writes = [d])
  | moved (next : Word12) (h : t = (s.afterReads (touches i s).reads).retire none next)
      (hw : (touches i s).writes = []) (hc : isControl i = true ∨ next = s.pc + 1)
  | loaded (d : Reg) (o : Option Reg) (a : Word12) (h : t = (s.afterReads (touches i s).reads).loaded d o a)
      (hw : (touches i s).writes = [d]) (hn : ∃ u, u.access = some (.load a) ∧ ¬ s.Violates u)
  | stored (o : Option Reg) (a v : Word12) (h : t = (s.afterReads (touches i s).reads).stored o a v)
      (hs : storesTo i = some a) (hn : ∃ u, u.access = some (.store a) ∧ ¬ s.Violates u)
  | halted (h : t = (s.afterReads (touches i s).reads).halt) (hc : isControl i = true)
  | divided (n m ret : Word12) (h : t = (s.afterReads (touches i s).reads).divided n m ret)
      (hw : (touches i s).writes = divWrites) (hc : isControl i = true)

theorem aluImm_eq_next {op : Word12 → Word12 → Word12} {imm dst : Word12} {s t : State}
    (h : aluImm op imm dst s = .next t) :
    ∃ v, t = (s.afterReads [regIn dst]).writeBack (regIn dst) v := by
  obtain ⟨d, hd, h⟩ := withReg_eq_next h
  obtain ⟨_, h⟩ := guarded_eq_next h
  cases h
  exact ⟨_, by rw [hd.regIn_eq]⟩

theorem aluReg_eq_next {op : Word12 → Word12 → Word12} {src dst : Word12} {s t : State}
    (h : aluReg op src dst s = .next t) :
    ∃ v, t = (s.afterReads [regIn src, regIn dst]).writeBack (regIn dst) v := by
  obtain ⟨r, hr, h⟩ := withReg_eq_next h
  obtain ⟨d, hd, h⟩ := withReg_eq_next h
  obtain ⟨_, h⟩ := guarded_eq_next h
  cases h
  exact ⟨_, by rw [hd.regIn_eq, hr.regIn_eq]⟩

theorem jumpImm_eq_next {c : Condition} {im : List Reg} {target tested : Word12} {s t : State}
    (h : jumpImm c im target tested s = .next t) :
    ∃ next, t = (s.afterReads (regIn tested :: im)).retire none next := by
  obtain ⟨_, ht, h⟩ := withReg_eq_next h
  obtain ⟨_, h⟩ := guarded_eq_next h
  cases h
  exact ⟨_, by rw [ht.regIn_eq]; rfl⟩

theorem jumpReg_eq_next {c : Condition} {im : List Reg} {src tested : Word12} {s t : State}
    (h : jumpReg c im src tested s = .next t) :
    ∃ next, t = (s.afterReads (regIn src :: regIn tested :: im)).retire none next := by
  obtain ⟨_, hr, h⟩ := withReg_eq_next h
  obtain ⟨_, ht, h⟩ := withReg_eq_next h
  obtain ⟨_, h⟩ := guarded_eq_next h
  cases h
  exact ⟨_, by rw [hr.regIn_eq, ht.regIn_eq]; rfl⟩

/-- What `mswt` touches. -/
theorem touches_mswt {src : Word12} {s : State} {r : Reg} (hr : Names src r) :
    touches (.mswt src) s = virtualTouches (s.value [] r) [r] := by
  simp [touches, hr.regIn_eq]

theorem exec_eq_next {i : Instr} {s t : State} (h : exec i s = .next t) : NextShape i s t := by
  cases i with
  | nop => exact .moved _ (by cases h; rfl) rfl (.inr rfl)
  | seti imm dst =>
    obtain ⟨d, hd, h⟩ := withReg_eq_next h
    obtain ⟨_, h⟩ := guarded_eq_next h
    exact .wrote d _ (by cases h; rfl) (by simp [touches, hd.regIn_eq])
  | set src dst =>
    obtain ⟨r, hr, h⟩ := withReg_eq_next h
    obtain ⟨d, hd, h⟩ := withReg_eq_next h
    obtain ⟨_, h⟩ := guarded_eq_next h
    exact .wrote d _ (by cases h; simp only [touches, hr.regIn_eq]; rfl) (by simp [touches, hd.regIn_eq])
  | addi imm dst => obtain ⟨v, h⟩ := aluImm_eq_next h; exact .wrote _ v h rfl
  | add src dst => obtain ⟨v, h⟩ := aluReg_eq_next h; exact .wrote _ v h rfl
  | muli imm dst => obtain ⟨v, h⟩ := aluImm_eq_next h; exact .wrote _ v h rfl
  | mul src dst => obtain ⟨v, h⟩ := aluReg_eq_next h; exact .wrote _ v h rfl
  | subi imm dst => obtain ⟨v, h⟩ := aluImm_eq_next h; exact .wrote _ v h rfl
  | sub src dst => obtain ⟨v, h⟩ := aluReg_eq_next h; exact .wrote _ v h rfl
  | sli imm dst => obtain ⟨v, h⟩ := aluImm_eq_next h; exact .wrote _ v h rfl
  | sl src dst => obtain ⟨v, h⟩ := aluReg_eq_next h; exact .wrote _ v h rfl
  | sri imm dst => obtain ⟨v, h⟩ := aluImm_eq_next h; exact .wrote _ v h rfl
  | sr src dst => obtain ⟨v, h⟩ := aluReg_eq_next h; exact .wrote _ v h rfl
  | andi imm dst => obtain ⟨v, h⟩ := aluImm_eq_next h; exact .wrote _ v h rfl
  | and src dst => obtain ⟨v, h⟩ := aluReg_eq_next h; exact .wrote _ v h rfl
  | ori imm dst => obtain ⟨v, h⟩ := aluImm_eq_next h; exact .wrote _ v h rfl
  | or src dst => obtain ⟨v, h⟩ := aluReg_eq_next h; exact .wrote _ v h rfl
  | not dst =>
    obtain ⟨d, hd, h⟩ := withReg_eq_next h
    obtain ⟨_, h⟩ := guarded_eq_next h
    exact .wrote d _ (by cases h; simp only [touches, hd.regIn_eq]; rfl) (by simp [touches, hd.regIn_eq])
  | mswti index =>
    rcases runVirtual_eq_next h with ⟨rfl, _, h⟩ | ⟨rfl, _, _, h⟩
    · exact .halted h rfl
    · exact .divided _ _ _ h rfl rfl
  | mswt src =>
    obtain ⟨r, hr, h⟩ := withReg_eq_next h
    obtain ⟨_, h⟩ := guarded_eq_next h
    have ht := touches_mswt (s := s) hr
    rcases runVirtual_eq_next h with ⟨hi, _, h⟩ | ⟨hi, _, _, h⟩
    · exact .halted (by rw [h, ht, hi]; rfl) rfl
    · rw [State.afterReads_afterReads] at h
      exact .divided _ _ _ (by rw [h, ht, hi]; rfl) (by rw [ht, hi]; rfl) rfl
  | jmpi target => exact .moved _ (by cases h; rfl) rfl (.inl rfl)
  | jmp src =>
    obtain ⟨r, hr, h⟩ := withReg_eq_next h
    obtain ⟨_, h⟩ := guarded_eq_next h
    exact .moved _ (by cases h; simp only [touches, hr.regIn_eq]; rfl) rfl (.inl rfl)
  | zjmpi target tested => obtain ⟨n, h⟩ := jumpImm_eq_next h; exact .moved n h rfl (.inl rfl)
  | zjmp src tested => obtain ⟨n, h⟩ := jumpReg_eq_next h; exact .moved n h rfl (.inl rfl)
  | ljmpi target tested => obtain ⟨n, h⟩ := jumpImm_eq_next h; exact .moved n h rfl (.inl rfl)
  | ljmp src tested => obtain ⟨n, h⟩ := jumpReg_eq_next h; exact .moved n h rfl (.inl rfl)
  | gjmpi target tested => obtain ⟨n, h⟩ := jumpImm_eq_next h; exact .moved n h rfl (.inl rfl)
  | gjmp src tested => obtain ⟨n, h⟩ := jumpReg_eq_next h; exact .moved n h rfl (.inl rfl)
  | loadi addr dst =>
    obtain ⟨d, hd, h⟩ := withReg_eq_next h
    obtain ⟨hn, h⟩ := guarded_eq_next h
    exact .loaded d _ _ (by cases h; rfl) (by simp [touches, hd.regIn_eq]) ⟨_, rfl, hn⟩
  | load src dst =>
    obtain ⟨r, hr, h⟩ := withReg_eq_next h
    obtain ⟨d, hd, h⟩ := withReg_eq_next h
    obtain ⟨hn, h⟩ := guarded_eq_next h
    exact .loaded d _ _ (by cases h; simp only [touches, hr.regIn_eq]; rfl) (by simp [touches, hd.regIn_eq])
      ⟨_, rfl, hn⟩
  | storei value addr =>
    simp only [exec, execStorei] at h
    obtain ⟨hn, h⟩ := guarded_eq_next h
    exact .stored _ _ _ (by cases h; rfl) rfl ⟨_, rfl, hn⟩
  | store src addr =>
    obtain ⟨r, hr, h⟩ := withReg_eq_next h
    obtain ⟨hn, h⟩ := guarded_eq_next h
    exact .stored _ _ _ (by cases h; simp only [touches, hr.regIn_eq]; rfl) rfl ⟨_, rfl, hn⟩

/-! ## Fetch and step -/

/-- The bytes at an address are the image of the word there (R53, R54). -/
theorem imageAt_eq_wordBytes (blank : Word12 → Word32) (m : Memory) (a : Word12) :
    Memory.imageAt blank m a = wordBytes (Memory.wordAt blank m a) := by
  have h : ∀ b0 b1 b2 b3 : Byte, wordBytes (wordOfBytes b0 b1 b2 b3) = [b0, b1, b2, b3] := by
    intro b0 b1 b2 b3
    have := b0.isLt
    simp only [wordBytes, wordOfBytes, List.cons.injEq, and_true]
    refine ⟨?_, ?_, ?_, ?_⟩ <;>
    · apply BitVec.eq_of_toNat_eq
      simp only [BitVec.toNat_append, BitVec.extractLsb'_toNat, Nat.shiftRight_eq_div_pow]
      rw [← Nat.shiftLeft_add_eq_or_of_lt b3.isLt, ← Nat.shiftLeft_add_eq_or_of_lt b2.isLt,
        ← Nat.shiftLeft_add_eq_or_of_lt b1.isLt]
      simp only [Nat.shiftLeft_eq]
      omega
  simp [Memory.imageAt, Memory.wordAt, h]

/-- Decoding a word's image decodes the word. -/
theorem decode_wordBytes (w : Word32) :
    decode (wordBytes w) =
      match decodeWord w with
      | some i => .ok (i, [])
      | none => .error (.illegalInstruction w) := by
  simp only [wordBytes, decode, wordOfBytes_extract]
  all_goals (rcases decodeWord w with _ | i <;> rfl)

/-- The fetch decodes the word at the pc, or raises IllegalInstruction with it (R88). -/
theorem fetch_eq (s : State) :
    s.fetch =
      match decodeWord (s.uromWord s.pc) with
      | some i => .ok i
      | none => .error (.illegalInstruction s.pc (s.uromWord s.pc)) := by
  simp only [State.fetch, imageAt_eq_wordBytes, decode_wordBytes, State.uromWord]
  cases decodeWord (Memory.wordAt Config.uromInit s.urom s.pc) <;> rfl

/-- What a step that answers a next state did: a halted machine stayed, or an instruction was executed. -/
theorem step_eq_next {s t : State} (h : step s = .next t) :
    (s.halted = true ∧ t = s) ∨ ∃ i, s.fetch = .ok i ∧ exec i s = .next t := by
  simp only [step] at h
  split at h
  · cases h
  · split_ifs at h with hh
    · exact .inl ⟨hh, by cases h; rfl⟩
    · split at h
      · rename_i i hi
        exact .inr ⟨i, hi, h⟩
      · cases h

end Sys2Proof.Machine
end

