-- ==== Sys2Proof/Laws/PerInstr.lean ====
section
/-! SUPPORT. The family Encoding: where the encoder puts the selector and the operand fields of each instruction. -/

namespace Sys2Proof

theorem opcOf_packWord (opc flg : BitVec 4) (f s : Word12) : opcOf (packWord opc flg f s) = opc := by
  apply BitVec.eq_of_getLsbD_eq; intro i hi
  simp only [opcOf, packWord, BitVec.getLsbD_extractLsb', BitVec.getLsbD_append]
  simp [show i < 4 by omega]

theorem flgOf_packWord (opc flg : BitVec 4) (f s : Word12) : flgOf (packWord opc flg f s) = flg := by
  apply BitVec.eq_of_getLsbD_eq; intro i hi
  simp only [flgOf, packWord, BitVec.getLsbD_extractLsb', BitVec.getLsbD_append]
  simp [show i < 4 by omega]

theorem firstOf_packWord (opc flg : BitVec 4) (f s : Word12) : firstOf (packWord opc flg f s) = f := by
  apply BitVec.eq_of_getLsbD_eq; intro i hi
  simp only [firstOf, packWord, BitVec.getLsbD_extractLsb', BitVec.getLsbD_append]
  simp [show i < 12 by omega, show ¬ 8 + i < 4 by omega, show ¬ 8 + i - 4 < 4 by omega,
    show 8 + i - 4 - 4 = i by omega]

theorem secondOf_packWord (opc flg : BitVec 4) (f s : Word12) : secondOf (packWord opc flg f s) = s := by
  apply BitVec.eq_of_getLsbD_eq; intro i hi
  simp only [secondOf, packWord, BitVec.getLsbD_extractLsb', BitVec.getLsbD_append]
  simp [show i < 12 by omega, show ¬ 20 + i < 4 by omega, show ¬ 20 + i - 4 < 4 by omega,
    show ¬ 20 + i - 4 - 4 < 12 by omega, show 20 + i - 4 - 4 - 12 = i by omega]

/-- A byte is its two nibbles. -/
theorem nibbles_append (b : Byte) : b.extractLsb' 4 4 ++ b.extractLsb' 0 4 = b := by
  revert b; decide

theorem selOf_packSel (sel : Byte) (f s : Word12) : selOf (packSel sel f s) = sel := by
  rw [selOf, packSel, opcOf_packWord, flgOf_packWord, nibbles_append]

/-- The encoder's word carries the row's selector and the instruction's two fields (R81, R86, R87). -/
def Laws.Encoding.Statement (i : Instr) : Prop :=
  selOf (encodeWord i) = i.selector ∧ firstOf (encodeWord i) = i.fields.1 ∧ secondOf (encodeWord i) = i.fields.2

theorem Laws.Encoding.all (i : Instr) : Laws.Encoding.Statement i :=
  ⟨selOf_packSel _ _ _, firstOf_packWord _ _ _ _, secondOf_packWord _ _ _ _⟩

theorem Laws.Encoding.nop : Laws.Encoding.Statement .nop := Laws.Encoding.all _
theorem Laws.Encoding.seti (imm dst : Word12) : Laws.Encoding.Statement (.seti imm dst) := Laws.Encoding.all _
theorem Laws.Encoding.set (src dst : Word12) : Laws.Encoding.Statement (.set src dst) := Laws.Encoding.all _
theorem Laws.Encoding.addi (imm dst : Word12) : Laws.Encoding.Statement (.addi imm dst) := Laws.Encoding.all _
theorem Laws.Encoding.add (src dst : Word12) : Laws.Encoding.Statement (.add src dst) := Laws.Encoding.all _
theorem Laws.Encoding.muli (imm dst : Word12) : Laws.Encoding.Statement (.muli imm dst) := Laws.Encoding.all _
theorem Laws.Encoding.mul (src dst : Word12) : Laws.Encoding.Statement (.mul src dst) := Laws.Encoding.all _
theorem Laws.Encoding.subi (imm dst : Word12) : Laws.Encoding.Statement (.subi imm dst) := Laws.Encoding.all _
theorem Laws.Encoding.sub (src dst : Word12) : Laws.Encoding.Statement (.sub src dst) := Laws.Encoding.all _
theorem Laws.Encoding.sli (imm dst : Word12) : Laws.Encoding.Statement (.sli imm dst) := Laws.Encoding.all _
theorem Laws.Encoding.sl (src dst : Word12) : Laws.Encoding.Statement (.sl src dst) := Laws.Encoding.all _
theorem Laws.Encoding.sri (imm dst : Word12) : Laws.Encoding.Statement (.sri imm dst) := Laws.Encoding.all _
theorem Laws.Encoding.sr (src dst : Word12) : Laws.Encoding.Statement (.sr src dst) := Laws.Encoding.all _
theorem Laws.Encoding.andi (imm dst : Word12) : Laws.Encoding.Statement (.andi imm dst) := Laws.Encoding.all _
theorem Laws.Encoding.and (src dst : Word12) : Laws.Encoding.Statement (.and src dst) := Laws.Encoding.all _
theorem Laws.Encoding.ori (imm dst : Word12) : Laws.Encoding.Statement (.ori imm dst) := Laws.Encoding.all _
theorem Laws.Encoding.or (src dst : Word12) : Laws.Encoding.Statement (.or src dst) := Laws.Encoding.all _
theorem Laws.Encoding.not (dst : Word12) : Laws.Encoding.Statement (.not dst) := Laws.Encoding.all _
theorem Laws.Encoding.mswti (index : Word12) : Laws.Encoding.Statement (.mswti index) := Laws.Encoding.all _
theorem Laws.Encoding.mswt (src : Word12) : Laws.Encoding.Statement (.mswt src) := Laws.Encoding.all _
theorem Laws.Encoding.jmpi (target : Word12) : Laws.Encoding.Statement (.jmpi target) := Laws.Encoding.all _
theorem Laws.Encoding.jmp (src : Word12) : Laws.Encoding.Statement (.jmp src) := Laws.Encoding.all _
theorem Laws.Encoding.zjmpi (target tested : Word12) : Laws.Encoding.Statement (.zjmpi target tested) := Laws.Encoding.all _
theorem Laws.Encoding.zjmp (src tested : Word12) : Laws.Encoding.Statement (.zjmp src tested) := Laws.Encoding.all _
theorem Laws.Encoding.ljmpi (target tested : Word12) : Laws.Encoding.Statement (.ljmpi target tested) := Laws.Encoding.all _
theorem Laws.Encoding.ljmp (src tested : Word12) : Laws.Encoding.Statement (.ljmp src tested) := Laws.Encoding.all _
theorem Laws.Encoding.gjmpi (target tested : Word12) : Laws.Encoding.Statement (.gjmpi target tested) := Laws.Encoding.all _
theorem Laws.Encoding.gjmp (src tested : Word12) : Laws.Encoding.Statement (.gjmp src tested) := Laws.Encoding.all _
theorem Laws.Encoding.loadi (addr dst : Word12) : Laws.Encoding.Statement (.loadi addr dst) := Laws.Encoding.all _
theorem Laws.Encoding.load (src dst : Word12) : Laws.Encoding.Statement (.load src dst) := Laws.Encoding.all _
theorem Laws.Encoding.storei (value addr : Word12) : Laws.Encoding.Statement (.storei value addr) := Laws.Encoding.all _
theorem Laws.Encoding.store (src addr : Word12) : Laws.Encoding.Statement (.store src addr) := Laws.Encoding.all _

end Sys2Proof
end

