-- ==== Sys2Proof/Tests/Slice0.lean ====
section
/-! SUPPORT. Tests: the well-formedness smoke test, words written out from the spec's encodings, one step on a small
state for the instructions (expected results: spec/95_test_vectors.md unless a comment says otherwise), and for every
statement with hypotheses a state and operands that meet them. -/

namespace Sys2Proof.Tests

open Sys2Proof.Machine

/-! ## Well-formedness: each check refuses a term of its own -/

theorem test_wellFormed_refuses_destination :
    (Instr.seti 0 10).wellFormed = false ∧ (Instr.loadi 0 0xFFF).wellFormed = false ∧
    (Instr.not 10).wellFormed = false ∧ (Instr.addi 0 10).wellFormed = false ∧
    (Instr.muli 0 10).wellFormed = false ∧ (Instr.subi 0 10).wellFormed = false ∧
    (Instr.sli 0 10).wellFormed = false ∧ (Instr.sri 0 10).wellFormed = false ∧
    (Instr.andi 0 10).wellFormed = false ∧ (Instr.ori 0 10).wellFormed = false := by decide

theorem test_wellFormed_refuses_tested :
    (Instr.zjmpi 0 10).wellFormed = false ∧ (Instr.ljmpi 0 10).wellFormed = false ∧
    (Instr.gjmpi 0 10).wellFormed = false ∧ (Instr.zjmp 9 10).wellFormed = false ∧
    (Instr.ljmp 9 10).wellFormed = false ∧ (Instr.gjmp 9 10).wellFormed = false := by decide

theorem test_wellFormed_refuses_first :
    (Instr.set 10 1).wellFormed = false ∧ (Instr.add 10 1).wellFormed = false ∧
    (Instr.mul 10 1).wellFormed = false ∧ (Instr.sub 10 1).wellFormed = false ∧
    (Instr.sl 10 1).wellFormed = false ∧ (Instr.sr 10 1).wellFormed = false ∧
    (Instr.and 10 1).wellFormed = false ∧ (Instr.or 10 1).wellFormed = false ∧
    (Instr.jmp 10).wellFormed = false ∧ (Instr.zjmp 10 1).wellFormed = false ∧
    (Instr.ljmp 10 1).wellFormed = false ∧ (Instr.gjmp 10 1).wellFormed = false ∧
    (Instr.mswt 10).wellFormed = false ∧ (Instr.load 10 1).wellFormed = false ∧
    (Instr.store 10 1).wellFormed = false := by decide

theorem test_wellFormed_refuses_second :
    (Instr.set 1 10).wellFormed = false ∧ (Instr.add 1 10).wellFormed = false ∧
    (Instr.mul 1 10).wellFormed = false ∧ (Instr.sub 1 10).wellFormed = false ∧
    (Instr.sl 1 10).wellFormed = false ∧ (Instr.sr 1 10).wellFormed = false ∧
    (Instr.and 1 10).wellFormed = false ∧ (Instr.or 1 10).wellFormed = false ∧
    (Instr.load 1 10).wellFormed = false := by decide

/-- Register 9 is the last one; an immediate, a target, an index and a RAM address are no register numbers (R85). -/
theorem test_wellFormed_accepts :
    (Instr.set 9 9).wellFormed = true ∧ (Instr.seti 0xFFF 9).wellFormed = true ∧
    (Instr.storei 0xFFF 0xFFF).wellFormed = true ∧ (Instr.store 9 0xFFF).wellFormed = true ∧
    (Instr.jmpi 0xFFF).wellFormed = true ∧ (Instr.mswti 0xFFF).wellFormed = true ∧
    Instr.nop.wellFormed = true := by decide

/-! ## Words written out from the encoding (95_test_vectors section 2) -/

theorem test_decode_moves :
    decode [0x00, 0x00, 0x00, 0x00] = .ok (.nop, []) ∧
    decode [0x00, 0x41, 0x23, 0x01] = .ok (.seti 0x123 4, []) ∧
    decode [0x00, 0x50, 0x04, 0x11] = .ok (.set 4 5, []) := by decide

theorem test_decode_arithmetic :
    decode [0x00, 0x10, 0x03, 0x02] = .ok (.addi 3 1, []) ∧
    decode [0x00, 0x10, 0x02, 0x12] = .ok (.add 2 1, []) ∧
    decode [0x00, 0x20, 0x45, 0x03] = .ok (.muli 0x045 2, []) ∧
    decode [0x00, 0x10, 0x00, 0x13] = .ok (.mul 0 1, []) ∧
    decode [0x00, 0x30, 0x01, 0x04] = .ok (.subi 1 3, []) ∧
    decode [0x00, 0x00, 0x01, 0x14] = .ok (.sub 1 0, []) := by decide

theorem test_decode_shifts :
    decode [0x00, 0x00, 0x04, 0x05] = .ok (.sli 4 0, []) ∧
    decode [0x00, 0x00, 0x01, 0x15] = .ok (.sl 1 0, []) ∧
    decode [0x00, 0x00, 0x04, 0x06] = .ok (.sri 4 0, []) ∧
    decode [0x00, 0x00, 0x01, 0x16] = .ok (.sr 1 0, []) := by decide

theorem test_decode_logic :
    decode [0x00, 0x20, 0xF0, 0x07] = .ok (.andi 0x0F0 2, []) ∧
    decode [0x00, 0x20, 0x03, 0x17] = .ok (.and 3 2, []) ∧
    decode [0x00, 0x20, 0x0F, 0x08] = .ok (.ori 0x00F 2, []) ∧
    decode [0x00, 0x20, 0x03, 0x18] = .ok (.or 3 2, []) ∧
    decode [0x00, 0x30, 0x00, 0x09] = .ok (.not 3, []) := by decide

theorem test_decode_virtual :
    decode [0x00, 0x00, 0x00, 0x0A] = .ok (.mswti 0, []) ∧
    decode [0x00, 0x00, 0x01, 0x0A] = .ok (.mswti 1, []) ∧
    decode [0x00, 0x00, 0x03, 0x1A] = .ok (.mswt 3, []) := by decide

theorem test_decode_jumps :
    decode [0x00, 0x00, 0x10, 0x0C] = .ok (.jmpi 0x010, []) ∧
    decode [0x00, 0x00, 0x09, 0x1C] = .ok (.jmp 9, []) ∧
    decode [0x00, 0x30, 0x20, 0x0D] = .ok (.zjmpi 0x020 3, []) ∧
    decode [0x00, 0x30, 0x04, 0x1D] = .ok (.zjmp 4 3, []) ∧
    decode [0x00, 0x00, 0x20, 0x0E] = .ok (.ljmpi 0x020 0, []) ∧
    decode [0x00, 0x00, 0x04, 0x1E] = .ok (.ljmp 4 0, []) ∧
    decode [0x00, 0x00, 0x20, 0x0F] = .ok (.gjmpi 0x020 0, []) ∧
    decode [0x00, 0x00, 0x04, 0x1F] = .ok (.gjmp 4 0, []) := by decide

theorem test_decode_ram :
    decode [0x00, 0x21, 0x00, 0x20] = .ok (.loadi 0x100 2, []) ∧
    decode [0x00, 0x20, 0x01, 0x30] = .ok (.load 1 2, []) ∧
    decode [0x10, 0x00, 0xAB, 0x21] = .ok (.storei 0x0AB 0x100, []) ∧
    decode [0x10, 0x10, 0x02, 0x31] = .ok (.store 2 0x101, []) := by decide

theorem test_decode_refuses :
    decodeWord 0x00000010 = none ∧ decodeWord 0x00300019 = none ∧ decodeWord 0x0000000B = none ∧
    decodeWord 0x0000001B = none ∧ decodeWord 0x00100022 = none ∧ decodeWord 0x0010003F = none ∧
    decodeWord 0x00100341 = none ∧ decodeWord 0x00100381 = none ∧ decodeWord 0xFFFFFFFF = none := by decide

theorem test_decode_ignores_unused_fields :
    decodeWord 0xFFFFFF00 = some .nop ∧ decodeWord 0xABC0100C = some (.jmpi 0x010) ∧
    decodeWord 0x003FFF09 = some (.not 3) ∧ decodeWord 0xFFF00121 = some (.storei 1 0xFFF) := by decide

theorem test_encode :
    encodeWord (.seti 0x123 4) = 0x00412301 ∧ encodeWord (.storei 0x0AB 0x100) = 0x1000AB21 ∧
    encodeWord (.not 3) = 0x00300009 ∧ encodeWord (.jmp 9) = 0x0000091C ∧
    encodeWord (.mswt 3) = 0x0000031A ∧ encodeWord .nop = 0x00000000 := by decide

theorem test_decodeTableWord :
    decodeTableWord 8 0x31 = some (.store 0 0) ∧ decodeTableWord 32 0x00412301 = some (.seti 0x123 4) ∧
    decodeTableWord 8 0x0B = none := by decide

/-! ## One step -/

/-- A machine at pc 0x005 whose registers all hold values, with nothing in its memories and no RAM shadow. -/
def quiet : State where
  regs := #v[0x064, 0x007, 0xABC, 0x000, 0x030, 0x801, 0xFFF, 0x0F0, 0x007, 0x02A]
  written := Vector.replicate 10 true
  pc := 0x005
  ram := []
  urom := []
  halted := false
  faultMark := none
  shadow := { last := none, beforeLast := none }
  params := { debugPrototype := true, hazardPolicy := .strict, ramInit := [] }
  freeCount := 0

/-- The machine right after it loaded register 1 from RAM address 0x100. -/
def shadowed : State := { quiet with shadow := { last := some (.load 1 none 0x100), beforeLast := none } }

/-- The same machine with no value in register `r` (R37). -/
def lacking (r : Reg) : State := { quiet with written := quiet.written.set r false }

/-- What a step left, if it answered a next state. -/
def after {α : Type} (o : Result) (f : State → α) : Option α :=
  match o with
  | .next t => some (f t)
  | .fault _ => none
  | .refused _ => none

/-- The fault a step stopped with, if it stopped. -/
def stop (o : Result) : Option Fault :=
  match o with
  | .next _ => none
  | .fault f => some f
  | .refused _ => none

theorem test_nop_wraps_pc : after (exec .nop { quiet with pc := 0xFFF }) (·.pc) = some 0x000 := by decide

theorem test_seti : after (exec (.seti 0xFFF 8) quiet) (·.reg 8) = some 0xFFF := by decide

theorem test_set_copies_first_to_second :
    after (exec (.set 4 5) quiet) (fun t => (t.reg 4, t.reg 5)) = some (0x030, 0x030) := by decide

theorem test_addi_wraps : after (exec (.addi 3 1) (quiet.setReg 1 0xFFE)) (·.reg 1) = some 0x001 := by decide

theorem test_add_doubles : after (exec (.add 5 5) quiet) (·.reg 5) = some 0x002 := by decide

theorem test_muli : after (exec (.muli 0x045 2) (quiet.setReg 2 0x123)) (·.reg 2) = some 0xE6F := by decide

theorem test_mul : after (exec (.mul 0 1) (quiet.setReg 1 0x029)) (·.reg 1) = some 0x004 := by decide

theorem test_subi_borrows : after (exec (.subi 1 3) quiet) (·.reg 3) = some 0xFFF := by decide

theorem test_subi_is_register_minus_immediate :
    after (exec (.subi 3 3) (quiet.setReg 3 0x00A)) (·.reg 3) = some 0x007 := by decide

theorem test_sub : after (exec (.sub 1 0) quiet) (·.reg 0) = some 0x05D := by decide

theorem test_sub_borrows :
    after (exec (.sub 1 0) ((quiet.setReg 1 0x064).setReg 0 0x007)) (·.reg 0) = some 0xFA3 := by decide

theorem test_sli_eleven : after (exec (.sli 11 3) (quiet.setReg 3 0x001)) (·.reg 3) = some 0x800 := by decide

theorem test_sli_sixteen : after (exec (.sli 16 6) quiet) (·.reg 6) = some 0x000 := by decide

theorem test_sl_by_itself : after (exec (.sl 0 0) (quiet.setReg 0 0x003)) (·.reg 0) = some 0x018 := by decide

theorem test_sri_is_logical : after (exec (.sri 1 0) (quiet.setReg 0 0x800)) (·.reg 0) = some 0x400 := by decide

theorem test_sri_twelve : after (exec (.sri 12 6) quiet) (·.reg 6) = some 0x000 := by decide

theorem test_sr : after (exec (.sr 1 2) (quiet.setReg 1 0x008)) (·.reg 2) = some 0x00A := by decide

theorem test_andi : after (exec (.andi 0x0F0 2) quiet) (·.reg 2) = some 0x0B0 := by decide

theorem test_and : after (exec (.and 3 2) (quiet.setReg 3 0x0FF)) (·.reg 2) = some 0x0BC := by decide

theorem test_ori : after (exec (.ori 0x00F 2) (quiet.setReg 2 0xA00)) (·.reg 2) = some 0xA0F := by decide

theorem test_or : after (exec (.or 7 2) (quiet.setReg 2 0xA0F)) (·.reg 2) = some 0xAFF := by decide

theorem test_not : after (exec (.not 7) quiet) (·.reg 7) = some 0xF0F := by decide

theorem test_jmpi : after (exec (.jmpi 0x005) quiet) (·.pc) = some 0x005 := by decide

theorem test_jmp : after (exec (.jmp 9) quiet) (·.pc) = some 0x02A := by decide

theorem test_zjmpi :
    after (exec (.zjmpi 0x020 3) quiet) (·.pc) = some 0x020 ∧
    after (exec (.zjmpi 0x020 3) (quiet.setReg 3 0x800)) (·.pc) = some 0x006 := by decide

theorem test_zjmp :
    after (exec (.zjmp 4 3) quiet) (·.pc) = some 0x030 ∧
    after (exec (.zjmp 4 3) (quiet.setReg 3 0x001)) (·.pc) = some 0x006 := by decide

/-- Equal is not less. -/
theorem test_ljmpi_equal : after (exec (.ljmpi 0x020 1) quiet) (·.pc) = some 0x006 := by decide

theorem test_ljmpi_is_unsigned :
    after (exec (.ljmpi 0x020 0) ((quiet.setReg 0 0x001).setReg 8 0x800)) (·.pc) = some 0x020 := by decide

theorem test_ljmp : after (exec (.ljmp 4 0) (quiet.setReg 0 0x005)) (·.pc) = some 0x030 := by decide

/-- Equal is not greater. -/
theorem test_gjmpi_equal : after (exec (.gjmpi 0x020 1) quiet) (·.pc) = some 0x006 := by decide

theorem test_gjmpi_is_unsigned :
    after (exec (.gjmpi 0x020 0) ((quiet.setReg 0 0x800).setReg 8 0x001)) (·.pc) = some 0x020 := by decide

theorem test_gjmp : after (exec (.gjmp 4 0) (quiet.setReg 0 0x009)) (·.pc) = some 0x030 := by decide

/-- The upper 20 bits of the word are ignored. -/
theorem test_loadi :
    after (exec (.loadi 0x100 2) { quiet with ram := Memory.putWord [] 0x100 0xFFFFF123 })
      (fun t => (t.reg 2, t.shadow.last)) = some (0x123, some (.load 2 none 0x100)) := by decide

/-- The address is read before the destination is written; the last RAM word exists. -/
theorem test_load :
    after (exec (.load 6 6) { quiet with ram := Memory.putWord [] 0xFFF 0x00000777 })
      (fun t => (t.reg 6, t.shadow.last)) = some (0x777, some (.load 6 (some 6) 0xFFF)) := by decide

theorem test_storei :
    after (exec (.storei 0x0AB 0x100) { quiet with ram := Memory.putWord [] 0x100 0xFFFFFFFF })
      (fun t => (t.ramWord 0x100, t.ram.length)) = some (0x000000AB, 4) := by decide

theorem test_store :
    after (exec (.store 0 0x101) quiet) (fun t => (t.ramWord 0x101, t.shadow.last)) =
      some (0x00000064, some (.store (some 0) 0x101)) := by decide

theorem test_mswti_halts :
    after (exec (.mswti 0) quiet) (fun t => (t.halted, t.pc, t.regs)) = some (true, 0x005, quiet.regs) := by decide

theorem test_mswti_divides :
    after (exec (.mswti 1) (quiet.setReg 9 0x005)) (fun t => (t.reg 2, t.reg 0, t.pc, t.reg 9)) =
      some (0x00E, 0x002, 0x005, 0x005) := by decide

/-- The index register is also the divisor. -/
theorem test_mswt_divides_by_its_index :
    after (exec (.mswt 1) (quiet.setReg 1 0x001)) (fun t => (t.reg 2, t.reg 0, t.pc)) =
      some (0x064, 0x000, 0x02A) := by decide

theorem test_mswt_undefined :
    stop (exec (.mswt 6) quiet) = some (.undefinedVirtualFunction 0x005 0xFFF) := by decide

/-! ## Faults and the RAM shadow -/

/-- Both fields invalid: the first is reported. -/
theorem test_invalid_register :
    stop (exec (.set 10 0xFFF) quiet) = some (.invalidRegister 0x005 10) ∧
    stop (exec (.seti 1 10) quiet) = some (.invalidRegister 0x005 10) := by decide

theorem test_hlt_disabled :
    stop (exec (.mswti 0) { quiet with params := { quiet.params with debugPrototype := false } }) =
      some (.hltDisabled 0x005) := by decide

theorem test_div_by_zero : stop (exec (.mswti 1) (quiet.setReg 1 0x000)) = some (.hang 0x005) := by decide

/-- Reading, then writing, the load's destination in its shadow; touching another register there. -/
theorem test_load_shadow :
    stop (exec (.add 1 3) shadowed) = some (.hazardViolation 0x005 (.load 1 none 0x100)) ∧
    stop (exec (.seti 0 1) shadowed) = some (.hazardViolation 0x005 (.load 1 none 0x100)) ∧
    after (exec (.addi 1 3) shadowed) (·.reg 3) = some 0x001 := by decide

/-- Slot +2, and the implicit read of register 8 (R258 a). -/
theorem test_load_shadow_implicit :
    stop (exec (.ljmpi 0 3) { quiet with shadow := { last := none, beforeLast := some (.load 8 none 0x100) } }) =
      some (.hazardViolation 0x005 (.load 8 none 0x100)) := by decide

/-- The register that supplied a load's address may be read, not written (R258 d). -/
theorem test_load_operand_shadow :
    stop (exec (.addi 1 1) { quiet with shadow := { last := some (.load 2 (some 1) 0x007), beforeLast := none } }) =
      some (.hazardViolation 0x005 (.load 2 (some 1) 0x007)) ∧
    after (exec (.set 1 4) { quiet with shadow := { last := some (.load 2 (some 1) 0x007), beforeLast := none } })
      (·.reg 4) = some 0x007 := by decide

/-- A store's shadow: no RAM instruction; no `div` unless the value register is 9. -/
theorem test_store_shadow :
    stop (exec (.storei 2 0x101) { quiet with shadow := { last := some (.store none 0x100), beforeLast := none } }) =
      some (.hazardViolation 0x005 (.store none 0x100)) ∧
    stop (exec (.mswti 1) { quiet with shadow := { last := some (.store (some 0) 0x100), beforeLast := none } }) =
      some (.hazardViolation 0x005 (.store (some 0) 0x100)) ∧
    after (exec (.mswti 1) { quiet with shadow := { last := some (.store (some 9) 0x100), beforeLast := none } })
      (·.reg 2) = some 0x00E := by decide

/-- After two slots without a RAM operation the shadow is over. -/
theorem test_shadow_ends :
    (((shadowed.advancePc).advancePc).violated { reads := [1], writes := [], access := none }) = none := by decide

/-! ## Registers that hold no value (R37; the payloads are those of the vectors of 95_test_vectors section 3) -/

theorem test_unwritten_payload :
    unwrittenRead (.set 4 5) (lacking 4) = some (0x005, 4) ∧
    unwrittenRead (.zjmp 4 3) ((lacking 4).setReg 3 0x001) = some (0x005, 4) ∧
    unwrittenRead (.gjmpi 0x020 0) (lacking 8) = some (0x005, 8) ∧
    unwrittenRead (.store 2 0x101) (lacking 2) = some (0x005, 2) ∧
    unwrittenRead (.mswti 1) (lacking 9) = some (0x005, 9) ∧
    unwrittenRead (.seti 0x123 4) (lacking 4) = none := by decide

/-- Writing needs no value, and the register holds one afterwards; `hlt` reads none. -/
theorem test_unwritten_is_written :
    after (exec (.seti 0x123 4) (lacking 4)) (fun t => (t.reg 4, t.isWritten 4)) = some (0x123, true) ∧
    after (exec (.mswti 0) (lacking 9)) (·.halted) = some true := by decide

/-- After a `div`, register 1 is as one never written (R196), and a read of it draws the free value after those of the
seven registers. -/
theorem test_unwritten_after_div :
    (match exec (.mswti 1) quiet with
      | .next t => some (unwrittenRead (.add 1 2) t, after (exec (.add 1 2) t) (·.freeCount))
      | .fault _ => none
      | .refused _ => none) = some (some (0x02A, 1), some 8) := by decide

/-- Each read draws a free value, two for a register named twice, none for one that holds a value. -/
theorem test_unwritten_free :
    after (exec (.add 4 4) (lacking 4)) (fun t => (t.freeCount, t.isWritten 4)) = some (2, true) ∧
    after (exec (.add 4 3) (lacking 4)) (·.freeCount) = some 1 ∧
    after (exec (.add 5 3) (lacking 4)) (·.freeCount) = some 0 := by decide

/-- RAM_INIT as an argument: a load from a word that no store has written. -/
theorem test_ramInit :
    after (exec (.loadi 0x100 2)
      { quiet with params := { quiet.params with ramInit := Memory.putWord [] 0x100 0xFFFFF123 } }) (·.reg 2) =
      some 0x123 := by decide

/-! ## Fetch -/

theorem test_step_runs_the_word_at_pc :
    after (step (quiet.withFetchWord 32 0x00412301)) (fun t => (t.reg 4, t.pc)) = some (0x123, 0x006) := by decide

theorem test_step_illegal :
    stop (step (quiet.withFetchWord 32 0x00300019)) = some (.illegalInstruction 0x005 0x00300019) := by decide

theorem test_loadProgram :
    after (step ({ quiet with pc := 0x001 }.loadProgram [0x00000000, 0x0000100C])) (·.pc) = some 0x010 := by decide

/-! ## ZAsm (30_encoding R95 to R106) -/

/-- `sync.storei:[7,0x100];` (95_test_vectors 1.6). -/
theorem test_asm_sync :
    Asm.assemble [.instr true 0x21 (.number 7) (.number 0x100)] = .ok [0x10000721, 0x00000000, 0x00000000] := by
  decide

/-- `.a; #c; seti:[@skipAddr,@ret]; jmpi:[a,0];`: a tag's address, and `@skipAddr` at address 0. -/
theorem test_asm_items :
    Asm.assemble [.tagDef ['a'], .comment ['c'], .instr false 0x01 .skipAddr .ret,
      .instr false 0x0C (.tag ['a']) (.number 0)] = .ok [0x00900201, 0x0000000C] := by decide

/-- A tag after the last instruction (log entry 16). -/
theorem test_asm_last_tag :
    Asm.assemble [.instr false 0x0C (.tag ['e']) (.number 0), .tagDef ['e']] = .ok [0x0000010C] := by decide

/-- `nop:[];` (95_test_vectors 1.5). -/
theorem test_asm_nop_text : Asm.assembleText ['n', 'o', 'p', ':', '[', ']', ';'] = .ok [0x00000000] := by decide

/-- `sl:[1,0x0];` as text. -/
theorem test_asm_text :
    Asm.assembleText ['s', 'l', ':', '[', '1', ',', '0', 'x', '0', ']', ';'] = .ok [0x00000115] := by decide

/-! ## Witnesses: for each statement with hypotheses, a state and operands that meet them -/

theorem clear {s : State} {u : Uses} (h : s.violated u = none) : ¬ s.Violates u :=
  not_violates_of_violated_eq_none h

/-- The hypotheses of the clauses of `StopsAsListed` for an instruction: a first bad register field; and,
for a well-formed instruction, a shadow that forbids it. -/
def Stopping (bad good : Instr) (n : Word12) : Prop :=
  bad.regFields.find? (fun n => !namesReg n) = some n ∧ good.wellFormed = true ∧
  shadowed.Violates (touches good shadowed)

theorem stopping {bad good : Instr} {n : Word12} (hb : bad.regFields.find? (fun n => !namesReg n) = some n)
    (hw : good.wellFormed = true) (hv : shadowed.violated (touches good shadowed) = some (.load 1 none 0x100)) :
    Stopping bad good n := ⟨hb, hw, violates_of_violated_eq_some hv⟩

/-- Parameters whose RAM_INIT gives the words at 0x000 and 0xFFF. -/
def initialised : Params := { quiet.params with ramInit := [(3, 0x2A), (16382, 0x01)] }

/-- A program of the longest size, and the last byte but one of RAM_INIT. -/
theorem test_witness_LaunchTakesItsArguments :
    (List.replicate 4096 0x0000000A#32).length ≤ 4096 ∧ 4095 < (List.replicate 4096 0x0000000A#32).length ∧
    16382 < 4 * 4096 ∧ Memory.find initialised.ramInit 16382 = some 0x01 :=
  ⟨List.length_replicate.le, List.length_replicate.symm ▸ by decide, by decide, rfl⟩

/-- A storei is at the pc. -/
def storing : State := quiet.withFetchWord 32 0x1000AB21

theorem canonical_storing : storing.MemoriesCanonical := by unfold State.MemoriesCanonical; decide

theorem test_witness_StepKeepsMemoriesCanonical :
    ∃ t, step storing = .next t ∧ storing.MemoriesCanonical ∧ t.ram ≠ [] :=
  ⟨_, rfl, canonical_storing, by decide⟩

theorem test_witness_StepKeepsStoredWordsNarrow : ∃ t, step storing = .next t ∧ storing.StoredWordsNarrow :=
  ⟨_, rfl, fun _ => .inl fun _ _ => rfl⟩

theorem test_witness_StepKeepsRamOperationsSpaced :
    ∃ t, step storing = .next t ∧ storing.RamOpsSpaced ∧ storing.Running ∧
      storing.params.hazardPolicy = .strict ∧ t.shadow.last = some (.store none 0x100) :=
  ⟨_, rfl, fun _ => .inl rfl, ⟨rfl, rfl⟩, rfl, rfl⟩

theorem test_witness_EncodeOfDecodeIsTheWordUsed : decodeWord 0x003FFF09 = some (.not 3) := by decide

theorem test_witness_ReservedFlagBitsAreIllegal :
    (flgOf 0x00100341).getLsbD 2 = true ∧ (flgOf 0x00100381).getLsbD 3 = true := by decide

theorem test_witness_UnusedFieldsAreIgnored :
    decodeWord 0x003FFF09 = some (.not 3) ∧ selOf 0x00300009 = selOf 0x003FFF09 ∧ usesFirst (.not 3) = false ∧
    secondOf 0x00300009 = secondOf 0x003FFF09 ∧
    decodeWord 0xABC0100C = some (.jmpi 0x010) ∧ selOf 0x0000100C = selOf 0xABC0100C ∧
    firstOf 0x0000100C = firstOf 0xABC0100C ∧ usesSecond (.jmpi 0x010) = false := by decide

theorem test_witness_StepRunsTheDecodedInstruction :
    storing.Running ∧ decode (wordBytes (storing.uromWord storing.pc)) = .ok (.storei 0x0AB 0x100, []) :=
  ⟨⟨rfl, rfl⟩, by decide⟩

theorem test_witness_StepRaisesIllegalInstruction :
    (quiet.withFetchWord 32 0x00000032).Running ∧
    selOf ((quiet.withFetchWord 32 0x00000032).uromWord 0x005) ∉ legalSelectors := ⟨⟨rfl, rfl⟩, by decide⟩

theorem test_witness_PlacedWordIsTheNextExecuted : decodeWord 0x1000AB21 = some (.storei 0x0AB 0x100) := by decide

theorem test_witness_MovesAssignTheDestination :
    (Names 9 9 ∧ ¬ quiet.Violates ⟨[], [9], none⟩ ∧ Stopping (.seti 0 10) (.seti 0 1) 10) ∧
    (Names 0 0 ∧ Names 9 9 ∧ ¬ quiet.Violates ⟨[0], [9], none⟩ ∧ Stopping (.set 10 0xFFF) (.set 1 0) 10) :=
  ⟨⟨rfl, clear rfl, stopping rfl rfl rfl⟩, ⟨rfl, rfl, clear rfl, stopping rfl rfl rfl⟩⟩

theorem test_witness_AdditionIsModulo4096 :
    (Names 9 9 ∧ ¬ quiet.Violates ⟨[9], [9], none⟩ ∧ Stopping (.addi 0 10) (.addi 0 1) 10) ∧
    (Names 0 0 ∧ Names 9 9 ∧ ¬ quiet.Violates ⟨[0, 9], [9], none⟩ ∧ Stopping (.add 10 1) (.add 1 0) 10) :=
  ⟨⟨rfl, clear rfl, stopping rfl rfl rfl⟩, ⟨rfl, rfl, clear rfl, stopping rfl rfl rfl⟩⟩

theorem test_witness_MultiplicationKeepsTheLowBits :
    (Names 9 9 ∧ ¬ quiet.Violates ⟨[9], [9], none⟩ ∧ Stopping (.muli 0 10) (.muli 0 1) 10) ∧
    (Names 0 0 ∧ Names 9 9 ∧ ¬ quiet.Violates ⟨[0, 9], [9], none⟩ ∧ Stopping (.mul 10 1) (.mul 1 0) 10) :=
  ⟨⟨rfl, clear rfl, stopping rfl rfl rfl⟩, ⟨rfl, rfl, clear rfl, stopping rfl rfl rfl⟩⟩

theorem test_witness_SubtractionIsSecondMinusFirst :
    (Names 9 9 ∧ ¬ quiet.Violates ⟨[9], [9], none⟩ ∧ Stopping (.subi 0 10) (.subi 0 1) 10) ∧
    (Names 0 0 ∧ Names 9 9 ∧ ¬ quiet.Violates ⟨[0, 9], [9], none⟩ ∧ Stopping (.sub 1 10) (.sub 1 0) 10) :=
  ⟨⟨rfl, clear rfl, stopping rfl rfl rfl⟩, ⟨rfl, rfl, clear rfl, stopping rfl rfl rfl⟩⟩

/-- Amounts 12 and 11, as immediates and in register 3. -/
theorem test_witness_LeftShiftMovesBitsUp :
    (Names 9 9 ∧ ¬ quiet.Violates ⟨[9], [9], none⟩ ∧ 12 ≤ (12 : Word12).toNat ∧ (11 : Word12).toNat < 12 ∧
      Stopping (.sli 0 10) (.sli 0 1) 10) ∧
    (Names 3 3 ∧ Names 9 9 ∧ ¬ (quiet.setReg 3 12).Violates ⟨[3, 9], [9], none⟩ ∧
      12 ≤ ((quiet.setReg 3 12).value [] 3).toNat ∧ ¬ (quiet.setReg 3 11).Violates ⟨[3, 9], [9], none⟩ ∧
      ((quiet.setReg 3 11).value [] 3).toNat < 12 ∧ Stopping (.sl 10 1) (.sl 1 0) 10) :=
  ⟨⟨rfl, clear rfl, by decide, by decide, stopping rfl rfl rfl⟩,
    ⟨rfl, rfl, clear rfl, by decide, clear rfl, by decide, stopping rfl rfl rfl⟩⟩

theorem test_witness_RightShiftMovesBitsDown :
    (Names 9 9 ∧ ¬ quiet.Violates ⟨[9], [9], none⟩ ∧ 12 ≤ (12 : Word12).toNat ∧ (11 : Word12).toNat < 12 ∧
      Stopping (.sri 0 10) (.sri 0 1) 10) ∧
    (Names 3 3 ∧ Names 9 9 ∧ ¬ (quiet.setReg 3 12).Violates ⟨[3, 9], [9], none⟩ ∧
      12 ≤ ((quiet.setReg 3 12).value [] 3).toNat ∧ ¬ (quiet.setReg 3 11).Violates ⟨[3, 9], [9], none⟩ ∧
      ((quiet.setReg 3 11).value [] 3).toNat < 12 ∧ Stopping (.sr 10 1) (.sr 1 0) 10) :=
  ⟨⟨rfl, clear rfl, by decide, by decide, stopping rfl rfl rfl⟩,
    ⟨rfl, rfl, clear rfl, by decide, clear rfl, by decide, stopping rfl rfl rfl⟩⟩

theorem test_witness_AndAndOrActOnEachBit :
    (Names 9 9 ∧ ¬ quiet.Violates ⟨[9], [9], none⟩ ∧ Stopping (.andi 0 10) (.andi 0 1) 10 ∧
      Stopping (.ori 0 10) (.ori 0 1) 10) ∧
    (Names 0 0 ∧ Names 9 9 ∧ ¬ quiet.Violates ⟨[0, 9], [9], none⟩ ∧ Stopping (.and 10 1) (.and 1 0) 10 ∧
      Stopping (.or 10 1) (.or 1 0) 10) :=
  ⟨⟨rfl, clear rfl, stopping rfl rfl rfl, stopping rfl rfl rfl⟩,
    ⟨rfl, rfl, clear rfl, stopping rfl rfl rfl, stopping rfl rfl rfl⟩⟩

theorem test_witness_NotIsTheOnesComplement :
    Names 9 9 ∧ ¬ quiet.Violates ⟨[9], [9], none⟩ ∧ Stopping (.not 10) (.not 1) 10 :=
  ⟨rfl, clear rfl, stopping rfl rfl rfl⟩

theorem test_witness_AluIdentities :
    (∃ t u, Names 9 9 ∧ exec (.addi 3 9) quiet = .next t ∧ exec (.subi 3 9) t = .next u) ∧
    (∃ t u, Names 0 0 ∧ Names 9 9 ∧ (0 : Reg) ≠ 9 ∧ quiet.isWritten 0 = true ∧
      exec (.sub 0 9) quiet = .next t ∧ exec (.add 0 9) t = .next u) ∧
    (11 : Word12).toNat < 12 ∧
    (∃ t u, Names 9 9 ∧ exec (.not 9) quiet = .next t ∧ exec (.not 9) t = .next u) ∧
    (∃ t u v, Names 9 9 ∧ exec (.muli 0xFFF 9) quiet = .next t ∧ exec (.not 9) quiet = .next u ∧
      exec (.addi 1 9) u = .next v) ∧
    (∃ t u, Names 9 9 ∧ quiet.isWritten 9 = true ∧ exec (.and 9 9) quiet = .next t ∧
      exec (.or 9 9) quiet = .next u) :=
  ⟨⟨_, _, rfl, rfl, rfl⟩, ⟨_, _, rfl, rfl, by decide, rfl, rfl, rfl⟩, by decide, ⟨_, _, rfl, rfl, rfl⟩,
    ⟨_, _, _, rfl, rfl, rfl, rfl⟩, ⟨_, _, rfl, rfl, rfl, rfl⟩⟩

theorem test_witness_UnconditionalJumpsGoToTheTarget :
    Names 9 9 ∧ ¬ quiet.Violates ⟨[9], [], none⟩ ∧ Stopping (.jmp 10) (.jmp 1) 10 :=
  ⟨rfl, clear rfl, stopping rfl rfl rfl⟩

/-- Register 3 is zero, register 9 is not. -/
theorem test_witness_ZeroJumpsTestTheRegister :
    (Names 3 3 ∧ ¬ quiet.Violates ⟨[3], [], none⟩ ∧ (quiet.value [] 3).toNat = 0 ∧
      Names 9 9 ∧ ¬ quiet.Violates ⟨[9], [], none⟩ ∧ (quiet.value [] 9).toNat ≠ 0 ∧
      Stopping (.zjmpi 0 10) (.zjmpi 0 1) 10) ∧
    (Names 0 0 ∧ ¬ quiet.Violates ⟨[0, 3], [], none⟩ ∧ (quiet.value [0] 3).toNat = 0 ∧
      ¬ quiet.Violates ⟨[0, 9], [], none⟩ ∧ (quiet.value [0] 9).toNat ≠ 0 ∧
      Stopping (.zjmp 10 1) (.zjmp 1 0) 10) :=
  ⟨⟨rfl, clear rfl, rfl, rfl, clear rfl, by decide, stopping rfl rfl rfl⟩,
    ⟨rfl, clear rfl, rfl, clear rfl, by decide, stopping rfl rfl rfl⟩⟩

/-- Register 3 is less than register 8, register 1 is equal to it. -/
theorem test_witness_LessJumpsCompareUnsigned :
    (Names 3 3 ∧ ¬ quiet.Violates ⟨[3, 8], [], none⟩ ∧ (quiet.value [] 3).toNat < (quiet.value [3] 8).toNat ∧
      Names 1 1 ∧ ¬ quiet.Violates ⟨[1, 8], [], none⟩ ∧ (quiet.value [1] 8).toNat ≤ (quiet.value [] 1).toNat ∧
      Stopping (.ljmpi 0 10) (.ljmpi 0 1) 10) ∧
    (Names 4 4 ∧ ¬ quiet.Violates ⟨[4, 3, 8], [], none⟩ ∧ (quiet.value [4] 3).toNat < (quiet.value [4, 3] 8).toNat ∧
      ¬ quiet.Violates ⟨[4, 1, 8], [], none⟩ ∧ (quiet.value [4, 1] 8).toNat ≤ (quiet.value [4] 1).toNat ∧
      Stopping (.ljmp 10 1) (.ljmp 1 0) 10) :=
  ⟨⟨rfl, clear rfl, by decide, rfl, clear rfl, by decide, stopping rfl rfl rfl⟩,
    ⟨rfl, clear rfl, by decide, clear rfl, by decide, stopping rfl rfl rfl⟩⟩

/-- Register 6 is greater than register 8, register 1 is equal to it. -/
theorem test_witness_GreaterJumpsCompareUnsigned :
    (Names 6 6 ∧ ¬ quiet.Violates ⟨[6, 8], [], none⟩ ∧ (quiet.value [6] 8).toNat < (quiet.value [] 6).toNat ∧
      Names 1 1 ∧ ¬ quiet.Violates ⟨[1, 8], [], none⟩ ∧ (quiet.value [] 1).toNat ≤ (quiet.value [1] 8).toNat ∧
      Stopping (.gjmpi 0 10) (.gjmpi 0 1) 10) ∧
    (Names 4 4 ∧ ¬ quiet.Violates ⟨[4, 6, 8], [], none⟩ ∧ (quiet.value [4, 6] 8).toNat < (quiet.value [4] 6).toNat ∧
      ¬ quiet.Violates ⟨[4, 1, 8], [], none⟩ ∧ (quiet.value [4] 1).toNat ≤ (quiet.value [4, 1] 8).toNat ∧
      Stopping (.gjmp 10 1) (.gjmp 1 0) 10) :=
  ⟨⟨rfl, clear rfl, by decide, rfl, clear rfl, by decide, stopping rfl rfl rfl⟩,
    ⟨rfl, clear rfl, by decide, clear rfl, by decide, stopping rfl rfl rfl⟩⟩

theorem test_witness_MemReadAfterMemWrite : (0xFFF : Word12) ≠ 0x000 := by decide

theorem test_witness_LoadsReadTheLowBits :
    (Names 9 9 ∧ ¬ quiet.Violates ⟨[], [9], some (.load 0xFFF)⟩ ∧ Stopping (.loadi 0 10) (.loadi 0 1) 10) ∧
    (Names 6 6 ∧ ¬ quiet.Violates ⟨[6], [9], some (.load (quiet.value [] 6))⟩ ∧
      Stopping (.load 10 1) (.load 1 0) 10) :=
  ⟨⟨rfl, clear rfl, stopping rfl rfl rfl⟩, ⟨rfl, clear rfl, stopping rfl rfl rfl⟩⟩

/-- `storei` has no register field: only its shadow clause has hypotheses. -/
theorem test_witness_StoresWriteTheWholeWord :
    (¬ quiet.Violates ⟨[], [], some (.store 0xFFF)⟩ ∧ (Instr.storei 0 0xFFF).wellFormed = true ∧
      shadowed.Violates (touches (.storei 0 0xFFF) shadowed)) ∧
    (Names 9 9 ∧ ¬ quiet.Violates ⟨[9], [], some (.store 0xFFF)⟩ ∧ Stopping (.store 10 1) (.store 1 9) 10) :=
  ⟨⟨clear rfl, rfl, violates_of_violated_eq_some (op := .load 1 none 0x100) rfl⟩,
    ⟨rfl, clear rfl, stopping rfl rfl rfl⟩⟩

/-- A part that is no debug prototype. -/
def noDebug : State := { quiet with params := { quiet.params with debugPrototype := false } }

theorem test_witness_HltStopsOnlyADebugPrototype :
    quiet.params.debugPrototype = true ∧ Names 3 3 ∧ quiet.value [] 3 = 0 ∧ ¬ quiet.Violates ⟨[3], [], none⟩ ∧
    noDebug.params.debugPrototype = false ∧ noDebug.value [] 3 = 0 ∧ ¬ noDebug.Violates ⟨[3], [], none⟩ :=
  ⟨rfl, rfl, rfl, clear rfl, rfl, rfl, clear rfl⟩

theorem test_witness_UndefinedVirtualFunctionsFault :
    2 ≤ (2 : Word12).toNat ∧ Names 3 3 ∧ 2 ≤ ((quiet.setReg 3 2).value [] 3).toNat ∧
    ¬ (quiet.setReg 3 2).Violates ⟨[3], [], none⟩ := ⟨by decide, rfl, by decide, clear rfl⟩

theorem test_witness_DivGivesQuotientAndRemainder :
    ¬ quiet.Violates ⟨divReads, divWrites, none⟩ ∧ quiet.value [0] 1 ≠ 0 ∧
    Names 3 3 ∧ (quiet.setReg 3 1).value [] 3 = 1 ∧ (quiet.setReg 3 1).value [3, 0] 1 ≠ 0 ∧
    ¬ (quiet.setReg 3 1).Violates ⟨3 :: divReads, divWrites, none⟩ :=
  ⟨clear rfl, by decide, rfl, rfl, by decide, clear rfl⟩

theorem test_witness_DivLeavesFreeValues :
    (∃ t, exec (.mswti 1) quiet = .next t) ∧
    Names 3 3 ∧ (quiet.setReg 3 1).value [] 3 = 1 ∧ ∃ t, exec (.mswt 3) (quiet.setReg 3 1) = .next t :=
  ⟨⟨_, rfl⟩, rfl, rfl, _, rfl⟩

/-- A `div` by zero is at the pc. -/
def hanging : State := (quiet.setReg 1 0).withFetchWord 32 0x0000010A

theorem test_witness_DivByZeroHangs :
    ¬ (quiet.setReg 1 0).Violates ⟨divReads, divWrites, none⟩ ∧ (quiet.setReg 1 0).value [0] 1 = 0 ∧
    Names 3 3 ∧ ((quiet.setReg 1 0).setReg 3 1).value [] 3 = 1 ∧ ((quiet.setReg 1 0).setReg 3 1).value [3, 0] 1 = 0 ∧
    ¬ ((quiet.setReg 1 0).setReg 3 1).Violates ⟨3 :: divReads, divWrites, none⟩ ∧
    hanging.Running ∧ step hanging = .fault (.hang 0x005) :=
  ⟨clear rfl, rfl, rfl, rfl, rfl, clear rfl, ⟨rfl, rfl⟩, rfl⟩

/-- Register 4 holds no value, register 3 does. -/
theorem test_witness_RegistersReadBackOrGiveFreshValues :
    ((3 : Reg) ≠ 4 ∧ (lacking 4).isWritten 3 = true) ∧ (lacking 4).isWritten 4 = false ∧
    (∃ t, exec (.set 4 5) (lacking 4) = .next t) ∧ (touches (.set 4 5) (lacking 4)).reads = [] ++ 4 :: [] ∧
    (∃ t, exec (.add 4 4) (lacking 4) = .next t) ∧ (touches (.add 4 4) (lacking 4)).reads = [4] ++ 4 :: [] :=
  ⟨⟨by decide, rfl⟩, rfl, ⟨_, rfl⟩, rfl, ⟨_, rfl⟩, rfl⟩

/-- Register 3 holds no value: `zjmp` reads it and goes on, `zjmp` of register 9 does not, nor does `div`. -/
theorem test_witness_UnwrittenReadsStopNothing :
    unwrittenRead (.zjmp 4 3) (lacking 3) = some ((lacking 3).pc, 3) ∧
    ((∃ t, exec (.zjmp 4 9) (lacking 3) = .next t) ∧ unwrittenRead (.zjmp 4 9) (lacking 3) = none) ∧
    ((∃ t, exec (.mswti 1) (lacking 3) = .next t) ∧ unwrittenRead (.mswti 1) (lacking 3) = none ∧
      (touches (.mswti 1) (lacking 3)).writes = divWrites) ∧
    (lacking 3).isWritten 3 = false :=
  ⟨rfl, ⟨⟨_, rfl⟩, rfl⟩, ⟨⟨_, rfl⟩, rfl, rfl⟩, rfl⟩

theorem test_witness_HazardViolationExactlyInForbiddenShadows :
    (Instr.seti 0 1).wellFormed = true ∧
    exec (.seti 0 1) shadowed = .fault (.hazardViolation shadowed.pc (.load 1 none 0x100)) := ⟨rfl, rfl⟩

theorem test_witness_StrictShadowForbidsRamAndDiv :
    ((Instr.storei 0 0).wellFormed = true ∧ (touches (.storei 0 0) shadowed).access ≠ none ∧
      shadowed.params.hazardPolicy = .strict ∧ ¬ shadowed.NoShadow) ∧
    shadowed.InShadowOf (.load 1 none 0x100) ∧
    State.InShadowOf { quiet with shadow := { last := none, beforeLast := some (.store (some 8) 0) } }
      (.store (some 8) 0) ∧ (8 : Reg) ≠ 9 :=
  ⟨⟨rfl, by decide, rfl, fun h => nomatch h.1⟩, .inl rfl, .inr rfl, by decide⟩

/-- Under the other policy, right after `storei` to 0xFFF. -/
def dependent : State :=
  { quiet with
    shadow := { last := some (.store none 0xFFF), beforeLast := none }
    params := { quiet.params with hazardPolicy := .dependencyOnly } }

theorem test_witness_DependencyOnlyForbidsTheSameAddress :
    dependent.params.hazardPolicy = .dependencyOnly ∧ dependent.shadow.last = some (.store none 0xFFF) ∧
    dependent.shadow.beforeLast = none ∧ Names 9 9 ∧ (0x000 : Word12) ≠ 0xFFF :=
  ⟨rfl, rfl, rfl, rfl, by decide⟩

theorem test_witness_WellFormedInstructionsComplete :
    (Instr.store 9 0xFFF).wellFormed = true ∧ ¬ quiet.Violates (touches (.store 9 0xFFF) quiet) ∧
    (Instr.mswti 2).wellFormed = true ∧ ¬ quiet.Violates (touches (.mswti 2) quiet) :=
  ⟨rfl, clear rfl, rfl, clear rfl⟩

theorem test_witness_OnlyStoresChangeTheRam :
    (∃ t, exec (.storei 1 0xFFE) quiet = .next t) ∧ storesTo (.storei 1 0xFFE) = some 0xFFE ∧
    byteKey 0xFFF 0 / 4 ≠ (0xFFE : Word12).toNat ∧
    (∃ t, exec (.seti 1 0) quiet = .next t) ∧ storesTo (.seti 1 0) = none :=
  ⟨⟨_, rfl⟩, rfl, by decide, ⟨_, rfl⟩, rfl⟩

theorem test_witness_UserRomAndParametersAreConstant : ∃ t, step storing = .next t := ⟨_, rfl⟩

theorem test_witness_InstructionsWriteOnlyListedRegisters :
    (∃ t, exec (.mswti 1) quiet = .next t) ∧ (9 : Reg) ∉ (touches (.mswti 1) quiet).writes ∧
    (∃ t, exec (.add 0 9) quiet = .next t) ∧ (0 : Reg) ∉ (touches (.add 0 9) quiet).writes :=
  ⟨⟨_, rfl⟩, by decide, ⟨_, rfl⟩, by decide⟩

theorem test_witness_InstructionsReadOnlyListedRegisters :
    (Instr.mswti 1).wellFormed = true ∧ (8 : Reg) ∉ (touches (.mswti 1) quiet).reads ∧
    (8 : Reg) ∈ (touches (.mswti 1) quiet).writes ∧
    (Instr.gjmpi 0 9).wellFormed = true ∧ (7 : Reg) ∉ (touches (.gjmpi 0 9) quiet).reads ∧
    (7 : Reg) ∉ (touches (.gjmpi 0 9) quiet).writes := by decide

theorem test_witness_PcAdvancesUnlessControlIsTransferred :
    isControl .nop = false ∧ ∃ t, exec .nop { quiet with pc := 0xFFF } = .next t := ⟨rfl, _, rfl⟩

/-- A `hlt` is at the pc: invoked by `mswti`, and by `mswt` with register 3. -/
theorem test_witness_OnlyHltHalts :
    (∃ t, (quiet.withFetchWord 32 0x0000000A).halted = false ∧
      step (quiet.withFetchWord 32 0x0000000A) = .next t ∧ t.halted = true) ∧
    (∃ t, (quiet.withFetchWord 32 0x0000031A).halted = false ∧
      step (quiet.withFetchWord 32 0x0000031A) = .next t ∧ t.halted = true) :=
  ⟨⟨_, rfl, rfl, rfl⟩, ⟨_, rfl, rfl, rfl⟩⟩

theorem test_witness_HaltedAndFaultedMachinesStay :
    State.halted { quiet with halted := true } = true ∧
    State.faultMark { quiet with faultMark := some (.hltDisabled 0x005) } ≠ none := by decide

theorem test_witness_FaultsLeaveOnlyTheMark :
    (quiet.withFetchWord 32 0x00000032).faultMark = none ∧
    step (quiet.withFetchWord 32 0x00000032) = .fault (.illegalInstruction 0x005 0x00000032) ∧
    ∀ pc, Fault.illegalInstruction 0x005 0x00000032 ≠ .hang pc := ⟨rfl, rfl, fun _ h => nomatch h⟩

/-- A load, which `sync.` is defined for, and an ALU instruction, which it is not. -/
theorem test_witness_SyncAddsTwoNops :
    Asm.Item.words [] 0 (.instr false 0x20 (.number 0x100) (.number 2)) = .ok [0x00210020] ∧
    Asm.isRamSel 0x20 = true ∧
    Asm.Item.words [] 0 (.instr false 0x02 (.number 1) (.number 2)) = .ok [0x00200102] ∧
    Asm.isRamSel 0x02 = false := by decide

theorem test_witness_AddressesAreCountedFromZero :
    Asm.assemble ([.instr true 0x21 (.number 7) (.number 0)] ++ .tagDef ['a'] ::
      [.instr false 0x0C (.tag ['a']) (.number 0)]) = .ok [0x00000721, 0, 0, 0x0000030C] := by decide

theorem test_witness_MnemonicsFixTheSelector : Asm.selectorOf ['s', 'l'] = some 0x15 := by decide

theorem test_witness_LoadedProgramsAreFetched :
    [0x0000000A#32].length ≤ 4096 ∧ 0 < [0x0000000A#32].length ∧ [0x0000000A#32].length ≤ (1 : Word12).toNat ∧
    Memory.wf quiet.urom = true := by decide

end Sys2Proof.Tests
end

/-! PROOF. The state after reset (spec 10_state R36 to R40). -/

namespace Sys2Proof.Machine

/-- Byte `i` of the word at `a`, when no byte is listed: that of `blank`'s word there. -/
theorem Memory.byteAt_nil (blank : Word12 → Word32) (a : Word12) {i : Nat} (h : i < 4) :
    Memory.byteAt blank [] (byteKey a i) = (blank a).extractLsb' (24 - 8 * i) 8 := by
  have hdiv : byteKey a i / 4 = a.toNat := by simp only [byteKey]; omega
  have hmod : byteKey a i % 4 = i := by simp only [byteKey]; omega
  simp [Memory.byteAt, Memory.find, hdiv, hmod]

/-- A memory that lists no byte reads as `blank` everywhere (R38). -/
@[simp] theorem Memory.wordAt_nil (blank : Word12 → Word32) (a : Word12) :
    Memory.wordAt blank [] a = blank a := by
  simp only [Memory.wordAt, Memory.byteAt_nil blank a (by decide : 0 < 4),
    Memory.byteAt_nil blank a (by decide : 1 < 4), Memory.byteAt_nil blank a (by decide : 2 < 4),
    Memory.byteAt_nil blank a (by decide : 3 < 4)]
  exact wordOfBytes_extract (blank a)

/-- At reset no register holds a value (R37). -/
@[simp] theorem State.reset_isWritten (r : Reg) : State.reset.isWritten r = false := by
  simp [State.isWritten, State.reset]

/-- At reset every RAM word is RAM_INIT's (R38). -/
@[simp] theorem State.reset_ramWord (a : Word12) :
    State.reset.ramWord a = ramInitWord State.reset.params a :=
  Memory.wordAt_nil _ a

/-- Settles O1: the RAM reads as RAM_INIT because reset lists no byte of it; the rest is what reset says. -/
theorem resetLeavesTheLaunchState : Obligations.ResetLeavesTheLaunchState :=
  ⟨rfl, State.reset_isWritten, State.reset_ramWord, rfl, rfl, rfl, rfl⟩

end Sys2Proof.Machine

/-! PROOF. The advance of the pc (spec 10_state R28, R29). -/

namespace Sys2Proof.Machine

/-- Adding 1 to the 12-bit pc is the advance modulo 4096, the wrap at 0xFFF included (R29). -/
theorem pcAdvanced_of_pc_eq {s t : State} (h : t.pc = s.pc + 1) : PcAdvanced s t := by
  simp only [PcAdvanced, h]
  exact BitVec.toNat_add s.pc 1

/-- Each shape of a next state that is not a control instruction's has the pc at the next word (R28). -/
theorem NextShape.pc_eq {i : Instr} {s t : State} (hi : isControl i = false) (h : NextShape i s t) :
    t.pc = s.pc + 1 := by
  cases h with
  | wrote d v h hw => rw [h]; rfl
  | moved next h hw hc =>
    have hnext : next = s.pc + 1 := hc.resolve_left (by simp [hi])
    rw [h, State.retire_pc, hnext]
  | loaded d o a h hw hn => rw [h]; rfl
  | stored o a v h hs hn => rw [h]; rfl
  | halted h hc => simp [hi] at hc
  | divided n m ret h hw hc => simp [hi] at hc

/-- Settles O52, by the inversion of `exec`: a next state of such an instruction has one of the shapes
that advance the pc by one word. -/
theorem pcAdvancesUnlessControlIsTransferred : Obligations.PcAdvancesUnlessControlIsTransferred :=
  fun _ _ _ hi h => pcAdvanced_of_pc_eq ((exec_eq_next h).pc_eq hi)

end Sys2Proof.Machine

/-! PROOF. The RAM's read and write primitives (spec 20_memory R56, R57). -/

namespace Sys2Proof.Machine

/-- Writing a word sets that word of the RAM to the zero-extended value and no other (R57). -/
theorem State.memWrite_ramWord (s : State) (a b v : Word12) :
    (s.memWrite a v).ramWord b = if b = a then zext32 v else s.ramWord b :=
  Memory.wordAt_putWord (ramInitWord s.params) s.ram a b (zext32 v)

@[simp] theorem State.memWrite_ramWord_self (s : State) (a v : Word12) :
    (s.memWrite a v).ramWord a = zext32 v := by
  rw [State.memWrite_ramWord, if_pos rfl]

theorem State.memWrite_ramWord_of_ne (s : State) {a b : Word12} (v : Word12) (h : b ≠ a) :
    (s.memWrite a v).ramWord b = s.ramWord b := by
  rw [State.memWrite_ramWord, if_neg h]

/-- The numerical value of a read is that of the word modulo 2^12 (R56). -/
theorem State.toNat_memRead (s : State) (a : Word12) : (s.memRead a).toNat = (s.ramWord a).toNat % 4096 :=
  BitVec.toNat_setWidth 12 (s.ramWord a)

/-- Zero extension keeps the number. -/
theorem toNat_zext32 (v : Word12) : (zext32 v).toNat = v.toNat :=
  BitVec.toNat_setWidth_of_le (by decide)

/-- A value written is read back: zero extension to the word, then its low 12 bits, gives the value (R56, R57). -/
@[simp] theorem State.memRead_memWrite_self (s : State) (a v : Word12) : (s.memWrite a v).memRead a = v := by
  rw [State.memRead, State.memWrite_ramWord_self]
  exact BitVec.setWidth_setWidth_of_le v (by decide) |>.trans (BitVec.setWidth_eq v)

/-- Settles O32: the word written is the zero-extended value, whose low 12 bits are the value again. -/
theorem memReadAfterMemWrite : Obligations.MemReadAfterMemWrite :=
  fun s a b v => ⟨s.memRead_memWrite_self a v, by rw [s.memWrite_ramWord_self, toNat_zext32],
    s.memWrite_ramWord_of_ne v, s.toNat_memRead b⟩

end Sys2Proof.Machine

/-! PROOF. The opcode map read in both directions, and the words that are no instruction (spec 30_encoding R87 to
R90). -/

namespace Sys2Proof

/-- The flags are the high half of the selector (R82). -/
theorem flgOf_eq_extract_selOf (w : Word32) : flgOf w = (selOf w).extractLsb' 4 4 :=
  (BitVec.extractLsb'_append_eq_left (a := flgOf w) (b := opcOf w)).symm

/-- A word decodes only to an instruction of its own selector (R88). -/
theorem selector_of_decodeWord {w : Word32} {i : Instr} (h : decodeWord w = some i) : i.selector = selOf w := by
  simp only [decodeWord] at h
  split at h <;> rename_i hsel <;> cases h <;> exact hsel.symm

/-- Every row of the opcode map has one of the 32 legal selectors (R87). -/
theorem selector_mem_legalSelectors (i : Instr) : i.selector ∈ legalSelectors := by
  cases i <;> simp [Instr.selector, legalSelectors]

/-- A word with another selector is no instruction (R88). -/
theorem decodeWord_eq_none_of_illegal {w : Word32} (h : selOf w ∉ legalSelectors) : decodeWord w = none := by
  refine Option.eq_none_iff_forall_ne_some.2 fun i hi => h ?_
  rw [← selector_of_decodeWord hi]
  exact selector_mem_legalSelectors i

/-- No legal selector has a reserved flags bit set (R90). -/
theorem reservedFlags_of_legal : ∀ sel ∈ legalSelectors,
    (sel.extractLsb' 4 4).getLsbD 2 = false ∧ (sel.extractLsb' 4 4).getLsbD 3 = false := by
  decide

/-- Settles O11: the flags are part of the selector, and the 32 legal ones, which the encoder emits and the decoder
accepts, have both reserved bits zero. -/
theorem reservedFlagBitsAreIllegal : Obligations.ReservedFlagBitsAreIllegal := by
  constructor
  · intro w hset
    refine decodeWord_eq_none_of_illegal fun hlegal => ?_
    obtain ⟨h2, h3⟩ := reservedFlags_of_legal _ hlegal
    rw [← flgOf_eq_extract_selOf] at h2 h3
    rw [h2, h3] at hset
    simp at hset
  · intro i
    obtain ⟨hsel, _, _⟩ := Laws.Encoding.all i
    rw [flgOf_eq_extract_selOf, hsel]
    exact reservedFlags_of_legal _ (selector_mem_legalSelectors i)

end Sys2Proof

namespace Sys2Proof.Machine

/-- A running machine whose fetch fails stops with the fetch's fault (R221). -/
theorem step_of_fetch_error {s : State} {f : Fault} (hs : s.Running) (h : s.fetch = .error f) :
    step s = .fault f := by
  obtain ⟨hhalted, hmark⟩ := hs
  simp [step, hhalted, hmark, h, raise]

/-- Settles O16: no word with such a selector decodes, so the fetch fails, with the pc and the word. -/
theorem stepRaisesIllegalInstruction : Obligations.StepRaisesIllegalInstruction := by
  intro s hs hsel
  refine step_of_fetch_error hs ?_
  simp only [fetch_eq, decodeWord_eq_none_of_illegal hsel]

end Sys2Proof.Machine

/-! PROOF. The register-number fields of an instruction (spec 30_encoding R91, 60_exceptions R223). -/

namespace Sys2Proof.Machine

/-- At `s`, the result is InvalidRegister(n) exactly for the `n` that is the first of the fields not to name a
register. -/
def InvalidExactlyAt (s : State) (fields : List Word12) (res : Result) : Prop :=
  ∀ n, res = .fault (.invalidRegister s.pc n) ↔ fields.find? (fun n => !namesReg n) = some n

section

variable {s : State}

theorem InvalidExactlyAt.of_ne {res : Result} (h : ∀ n, res ≠ .fault (.invalidRegister s.pc n)) :
    InvalidExactlyAt s [] res := fun n => by
  simp [h n]

theorem InvalidExactlyAt.next (t : State) : InvalidExactlyAt s [] (.next t) := .of_ne (by simp)

/-- `reg(n)` checks its field before those of what it goes on with (R91, R223). -/
theorem InvalidExactlyAt.withReg {f : Word12} {fields : List Word12} {go : Reg → Result}
    (h : ∀ r, InvalidExactlyAt s fields (go r)) : InvalidExactlyAt s (f :: fields) (s.withReg f go) := by
  intro n
  rcases withReg_cases s f go with ⟨r, hr, he⟩ | ⟨hbad, he⟩
  · rw [he, h r n, List.find?_cons_of_neg (by simp [namesReg_iff.2 ⟨r, hr⟩])]
  · rw [he, List.find?_cons_of_pos (by simp [hbad])]
    simp

/-- The shadow check raises no InvalidRegister of its own. -/
theorem InvalidExactlyAt.guarded {u : Uses} {go : State → Result}
    (h : InvalidExactlyAt s [] (go (s.afterReads u.reads))) : InvalidExactlyAt s [] (s.guarded u go) := by
  rcases guarded_cases s u go with ⟨_, he⟩ | ⟨op, _, _, he⟩
  · rwa [he]
  · exact he ▸ .of_ne (by simp)

/-- The shadow check, then an effect that does not fault: the end of every template. -/
theorem InvalidExactlyAt.guarded_next (u : Uses) (effect : State → State) :
    InvalidExactlyAt s [] (s.guarded u fun s' => .next (effect s')) :=
  .guarded (.next _)

theorem invalidExactlyAt_aluImm (op : Word12 → Word12 → Word12) (imm dst : Word12) :
    InvalidExactlyAt s [dst] (aluImm op imm dst s) :=
  .withReg fun _ => .guarded_next _ _

theorem invalidExactlyAt_aluReg (op : Word12 → Word12 → Word12) (src dst : Word12) :
    InvalidExactlyAt s [src, dst] (aluReg op src dst s) :=
  .withReg fun _ => .withReg fun _ => .guarded_next _ _

theorem invalidExactlyAt_jumpImm (c : Condition) (implicit : List Reg) (target tested : Word12) :
    InvalidExactlyAt s [tested] (jumpImm c implicit target tested s) :=
  .withReg fun _ => .guarded_next _ _

theorem invalidExactlyAt_jumpReg (c : Condition) (implicit : List Reg) (src tested : Word12) :
    InvalidExactlyAt s [src, tested] (jumpReg c implicit src tested s) :=
  .withReg fun _ => .withReg fun _ => .guarded_next _ _

/-- A virtual function takes its registers by number, not from a field: it raises no InvalidRegister. -/
theorem invalidExactlyAt_runVirtual (index : Word12) : InvalidExactlyAt s [] (runVirtual index s) := by
  simp only [runVirtual]
  split_ifs
  · simp only [runHlt]
    split_ifs
    · exact .next _
    · exact .of_ne (by simp [raise])
  · refine .guarded ?_
    split_ifs
    · exact .of_ne (by simp)
    · exact .next _
  · exact .of_ne (by simp [raise])

end

/-- Every instruction checks its register fields in their order, and nothing else it does is InvalidRegister. -/
theorem invalidExactlyAt_exec (i : Instr) (s : State) : InvalidExactlyAt s i.regFields (exec i s) := by
  cases i with
  | nop => exact .next _
  | jmpi => exact .next _
  | storei value addr => exact .guarded_next ⟨[], [], some (.store addr)⟩ (·.stored none addr value)
  | mswti => exact invalidExactlyAt_runVirtual _
  | mswt => exact .withReg fun _ => .guarded (invalidExactlyAt_runVirtual (s := s.afterReads _) _)
  | seti | not | jmp | loadi | store => exact .withReg fun _ => .guarded_next _ _
  | set | load => exact .withReg fun _ => .withReg fun _ => .guarded_next _ _
  | addi | muli | subi | sli | sri | andi | ori => exact invalidExactlyAt_aluImm _ _ _
  | add | mul | sub | sl | sr | and | or => exact invalidExactlyAt_aluReg _ _ _
  | zjmpi | ljmpi | gjmpi => exact invalidExactlyAt_jumpImm _ _ _ _
  | zjmp | ljmp | gjmp => exact invalidExactlyAt_jumpReg _ _ _ _

/-- Settles O42, from the order of the checks in each instruction. -/
theorem invalidRegisterExactlyOnBadFields : Obligations.InvalidRegisterExactlyOnBadFields :=
  invalidExactlyAt_exec

end Sys2Proof.Machine

/-! PROOF. The operand names of ZAsm (spec 30_encoding R103, R104). -/

namespace Sys2Proof.Asm

/-- Settles O57: `@cmp` and `@ret` are fixed fields, and `@skipAddr` is a 12-bit number, so it wraps at 4096. -/
theorem operandNamesHaveTheirValues : Obligations.OperandNamesHaveTheirValues :=
  fun _ addr => ⟨rfl, rfl, BitVec.ofNat 12 (addr + 2), rfl, BitVec.toNat_ofNat (addr + 2) 12⟩

end Sys2Proof.Asm

/-! PROOF. The encoder's word of every instruction decodes to it (spec 30_encoding R86, R87). -/

namespace Sys2Proof

/-- The decoder reads back every row of the opcode map, whatever the operand fields hold. -/
theorem decodeWord_encodeWord (i : Instr) : decodeWord (encodeWord i) = some i := by
  obtain ⟨hsel, hfirst, hsecond⟩ := Laws.Encoding.all i
  simp only [decodeWord, hsel, hfirst, hsecond]
  cases i <;> rfl

theorem encodedAs_selector (i : Instr) : Machine.EncodedAs i i.selector :=
  ⟨(Laws.Encoding.all i).1, decodeWord_encodeWord i⟩

end Sys2Proof

/-! PROOF. Where an instruction stops (spec 70_reset_and_hazards R258, 60_exceptions R223). -/

namespace Sys2Proof.Machine

/-- The result is a HazardViolation that names an operation of the shadow, one that forbids touching `u`. -/
def HazardStop (s : State) (u : Uses) (res : Result) : Prop :=
  ∃ op, s.InShadowOf op ∧ ShadowForbids s.params.hazardPolicy u op ∧ res = .fault (.hazardViolation s.pc op)

/-- What a shadow forbids of reads followed by more uses, it forbids of one of the two. -/
theorem shadowForbids_reads_append {p : HazardPolicy} {rs reads writes : List Reg} {op : RamOp} :
    ShadowForbids p ⟨rs ++ reads, writes, none⟩ op ↔
      ShadowForbids p ⟨rs, [], none⟩ op ∨ ShadowForbids p ⟨reads, writes, none⟩ op := by
  simp [ShadowForbids, and_or_left, exists_or, or_assoc]

/-- An instruction that touches nothing violates no shadow (R122, R152). -/
theorem not_violates_nothing (s : State) : ¬ s.Violates ⟨[], [], none⟩ := by
  rintro ⟨op, _, hf⟩
  simp [ShadowForbids] at hf

section

variable {s : State} {u : Uses}

theorem HazardStop.withReg {n : Word12} {go : Reg → Result} (hn : namesReg n = true)
    (h : HazardStop s u (go (regIn n))) : HazardStop s u (s.withReg n go) := by
  rwa [withReg_of_names (names_regIn hn)]

theorem HazardStop.guarded (h : s.Violates u) (go : State → Result) : HazardStop s u (s.guarded u go) := by
  rcases guarded_cases s u go with ⟨hn, _⟩ | hstop
  · exact absurd h hn
  · exact hstop

theorem hazardStop_aluImm {op : Word12 → Word12 → Word12} {imm dst : Word12} (hd : namesReg dst = true)
    (h : s.Violates ⟨[regIn dst], [regIn dst], none⟩) :
    HazardStop s ⟨[regIn dst], [regIn dst], none⟩ (aluImm op imm dst s) :=
  .withReg hd (.guarded h _)

theorem hazardStop_aluReg {op : Word12 → Word12 → Word12} {src dst : Word12} (hr : namesReg src = true)
    (hd : namesReg dst = true) (h : s.Violates ⟨[regIn src, regIn dst], [regIn dst], none⟩) :
    HazardStop s ⟨[regIn src, regIn dst], [regIn dst], none⟩ (aluReg op src dst s) :=
  .withReg hr (.withReg hd (.guarded h _))

theorem hazardStop_jumpImm {c : Condition} {im : List Reg} {target tested : Word12} (ht : namesReg tested = true)
    (h : s.Violates ⟨regIn tested :: im, [], none⟩) :
    HazardStop s ⟨regIn tested :: im, [], none⟩ (jumpImm c im target tested s) :=
  .withReg ht (.guarded h _)

theorem hazardStop_jumpReg {c : Condition} {im : List Reg} {src tested : Word12} (hr : namesReg src = true)
    (ht : namesReg tested = true) (h : s.Violates ⟨regIn src :: regIn tested :: im, [], none⟩) :
    HazardStop s ⟨regIn src :: regIn tested :: im, [], none⟩ (jumpReg c im src tested s) :=
  .withReg hr (.withReg ht (.guarded h _))

/-- After the reads `rs`, which no shadow forbids, a virtual function stops where a shadow forbids what it touches:
`div` does, and the others touch nothing more. -/
theorem hazardStop_runVirtual {index : Word12} {rs : List Reg} (hrs : ¬ s.Violates ⟨rs, [], none⟩)
    (h : s.Violates (virtualTouches index rs)) :
    HazardStop s (virtualTouches index rs) (runVirtual index (s.afterReads rs)) := by
  by_cases hi : index = 1
  · subst hi
    have hdiv : (s.afterReads rs).Violates divUses := by
      obtain ⟨op, hin, hf⟩ := h
      rcases shadowForbids_reads_append.1 hf with hread | hdiv
      · exact absurd ⟨op, hin, hread⟩ hrs
      · exact ⟨op, hin, hdiv⟩
    obtain ⟨op, hin, hf, he⟩ : HazardStop _ divUses (runDiv (s.afterReads rs)) := .guarded hdiv _
    exact ⟨op, hin, shadowForbids_reads_append.2 (.inr hf), he⟩
  · rw [virtualTouches, if_neg hi] at h
    exact absurd h hrs

/-- `mswt` stops in its own template, or in that of the function it invokes (R193). -/
theorem hazardStop_execMswt {src : Word12} (hr : namesReg src = true)
    (h : s.Violates (virtualTouches (s.value [] (regIn src)) [regIn src])) :
    HazardStop s (virtualTouches (s.value [] (regIn src)) [regIn src]) (execMswt src s) := by
  refine .withReg hr ?_
  rcases guarded_cases s ⟨[regIn src], [], none⟩ _ with ⟨hread, he⟩ | ⟨op, hin, hf, he⟩
  · rw [he]
    exact hazardStop_runVirtual hread h
  · refine ⟨op, hin, ?_, he⟩
    unfold virtualTouches
    split_ifs
    · exact shadowForbids_reads_append.2 (.inl hf)
    · exact hf

end

/-- Every well-formed instruction that a shadow forbids is a HazardViolation (R258, R260). -/
theorem hazardStop_exec (i : Instr) (s : State) (hwf : i.wellFormed = true) (h : s.Violates (touches i s)) :
    HazardStop s (touches i s) (exec i s) := by
  simp only [Instr.wellFormed, List.all_eq_true] at hwf
  cases i with
  | nop | jmpi => exact absurd h (not_violates_nothing s)
  | storei value addr => exact .guarded h (fun s' => .next (s'.stored none addr value))
  | mswti index => exact hazardStop_runVirtual (not_violates_nothing s) h
  | mswt src => exact hazardStop_execMswt (hwf src (by simp [Instr.regFields])) h
  | seti _ f | not f | jmp f | loadi _ f | store f =>
    exact .withReg (hwf f (by simp [Instr.regFields])) (.guarded h _)
  | set f g | load f g =>
    exact .withReg (hwf f (by simp [Instr.regFields]))
      (.withReg (hwf g (by simp [Instr.regFields])) (.guarded h _))
  | addi _ f | muli _ f | subi _ f | sli _ f | sri _ f | andi _ f | ori _ f =>
    exact hazardStop_aluImm (hwf f (by simp [Instr.regFields])) h
  | add f g | mul f g | sub f g | sl f g | sr f g | and f g | or f g =>
    exact hazardStop_aluReg (hwf f (by simp [Instr.regFields])) (hwf g (by simp [Instr.regFields])) h
  | zjmpi _ f | ljmpi _ f | gjmpi _ f => exact hazardStop_jumpImm (hwf f (by simp [Instr.regFields])) h
  | zjmp f g | ljmp f g | gjmp f g =>
    exact hazardStop_jumpReg (hwf f (by simp [Instr.regFields])) (hwf g (by simp [Instr.regFields])) h

/-- Every instruction has the two stops of its template: a bad register field and a shadow that forbids it. -/
theorem stopsAsListed (i : Instr) (s : State) : StopsAsListed i s :=
  ⟨fun n => (invalidExactlyAt_exec i s n).2, hazardStop_exec i s⟩

end Sys2Proof.Machine

/-! PROOF. `nop`, the moves and the ALU instructions (spec 40_basic_alu R120 to R139). -/

namespace Sys2Proof.Machine

/-! ## The template of R120 -/

@[simp] theorem State.writeBack_reg_self (s : State) (d : Reg) (v : Word12) : (s.writeBack d v).reg d = v :=
  s.setReg_reg_same d v

/-- The end of a slot leaves everything but the pc and the shadow record (R28, R35). -/
theorem frame_advancePc (s : State) : Frame s s.advancePc [] [] none where
  regs _ _ := ⟨rfl, rfl⟩
  ram _ _ := rfl
  urom := rfl
  halted := rfl
  faultMark := rfl
  params := rfl
  freeCount := rfl

/-- The reads, the write of the destination and the end of the slot do nothing else (R120). -/
theorem writesOnly_writeBack (s : State) (reads : List Reg) (d : Reg) (v : Word12) :
    WritesOnly s ((s.afterReads reads).writeBack d v) reads d := by
  refine ⟨⟨fun r hr => ?_, fun _ _ => rfl, rfl, rfl, rfl, rfl, rfl⟩, ?_, ⟨rfl, rfl⟩, pcAdvanced_of_pc_eq rfl⟩
  · have hne : r ≠ d := by simpa using hr
    simp [State.writeBack, State.advancePc, State.setReg_reg, State.setReg_isWritten, hne]
  · simp [State.writeBack, State.advancePc, State.setReg_isWritten]

section

variable {s : State} {op : Word12 → Word12 → Word12} {imm src dst : Word12} {r d : Reg}

/-- The end of every template of R120: what no shadow forbids leaves the value in the destination, and does nothing
else. -/
theorem guarded_writeBack_completes {reads : List Reg} {v : Word12} (hv : ¬ s.Violates ⟨reads, [d], none⟩) :
    ∃ t, (s.guarded ⟨reads, [d], none⟩ fun s' => .next (s'.writeBack d v)) = .next t ∧ t.reg d = v ∧
      WritesOnly s t reads d :=
  ⟨_, guarded_of_not_violates hv _, State.writeBack_reg_self _ d v, writesOnly_writeBack s reads d v⟩

theorem aluImm_completes (hd : Names dst d) (hv : ¬ s.Violates ⟨[d], [d], none⟩) :
    ∃ t, aluImm op imm dst s = .next t ∧ t.reg d = op (s.value [] d) imm ∧ WritesOnly s t [d] d := by
  rw [aluImm, withReg_of_names hd]
  exact guarded_writeBack_completes hv

theorem aluReg_completes (hr : Names src r) (hd : Names dst d) (hv : ¬ s.Violates ⟨[r, d], [d], none⟩) :
    ∃ t, aluReg op src dst s = .next t ∧ t.reg d = op (s.value [r] d) (s.value [] r) ∧ WritesOnly s t [r, d] d := by
  rw [aluReg, withReg_of_names hr, withReg_of_names hd]
  exact guarded_writeBack_completes hv

theorem execSeti_completes (hd : Names dst d) (hv : ¬ s.Violates ⟨[], [d], none⟩) :
    ∃ t, execSeti imm dst s = .next t ∧ t.reg d = imm ∧ WritesOnly s t [] d := by
  rw [execSeti, withReg_of_names hd]
  exact guarded_writeBack_completes hv

theorem execSet_completes (hr : Names src r) (hd : Names dst d) (hv : ¬ s.Violates ⟨[r], [d], none⟩) :
    ∃ t, execSet src dst s = .next t ∧ t.reg d = s.value [] r ∧ WritesOnly s t [r] d := by
  rw [execSet, withReg_of_names hr, withReg_of_names hd]
  exact guarded_writeBack_completes hv

theorem execNot_completes (hd : Names dst d) (hv : ¬ s.Violates ⟨[d], [d], none⟩) :
    ∃ t, execNot dst s = .next t ∧ t.reg d = notResult (s.value [] d) ∧ WritesOnly s t [d] d := by
  rw [execNot, withReg_of_names hd]
  exact guarded_writeBack_completes hv

end

/-! ## The results (R121) -/

theorem toNat_addResult (b a : Word12) : (addResult b a).toNat = (b.toNat + a.toNat) % 4096 := BitVec.toNat_add b a

theorem toNat_mulResult (b a : Word12) : (mulResult b a).toNat = b.toNat * a.toNat % 4096 := BitVec.toNat_mul b a

/-- The difference, with 4096 borrowed where it would be negative (R121). -/
theorem toNat_subResult (b a : Word12) :
    ((subResult b a).toNat : Int) =
      if a.toNat ≤ b.toNat then (b.toNat : Int) - a.toNat else (b.toNat : Int) - a.toNat + 4096 := by
  have hb := b.isLt
  have ha := a.isLt
  rw [subResult, BitVec.toNat_sub]
  split_ifs <;> omega

/-- `sl` is the left shift by the whole amount: one of 12 or more shifts every bit out (R131). -/
theorem slResult_eq_shiftLeft (b n : Word12) : slResult b n = b <<< n.toNat := by
  unfold slResult
  split_ifs with h
  · exact (BitVec.shiftLeft_eq_zero h).symm
  · apply BitVec.eq_of_toNat_eq
    simp [Nat.shiftLeft_eq]

theorem slResult_of_le {b n : Word12} (h : 12 ≤ n.toNat) : slResult b n = 0x000 := if_pos h

theorem toNat_slResult (b n : Word12) : (slResult b n).toNat = b.toNat * 2 ^ n.toNat % 4096 := by
  rw [slResult_eq_shiftLeft, BitVec.toNat_shiftLeft, Nat.shiftLeft_eq]

theorem getLsbD_slResult (b n : Word12) {k : Nat} (hk : k < 12) :
    (slResult b n).getLsbD k = (decide (n.toNat ≤ k) && b.getLsbD (k - n.toNat)) := by
  rw [slResult_eq_shiftLeft, BitVec.getLsbD_shiftLeft]
  simp [hk, ← decide_not]

/-- `sr` is the logical right shift by the whole amount (R133). -/
theorem srResult_eq_ushiftRight (b n : Word12) : srResult b n = b >>> n.toNat := by
  unfold srResult
  split_ifs with h
  · exact (BitVec.ushiftRight_eq_zero h).symm
  · apply BitVec.eq_of_toNat_eq
    rw [BitVec.toNat_ushiftRight, Nat.shiftRight_eq_div_pow, BitVec.toNat_ofNat]
    exact Nat.mod_eq_of_lt ((Nat.div_le_self _ _).trans_lt b.isLt)

theorem srResult_of_le {b n : Word12} (h : 12 ≤ n.toNat) : srResult b n = 0x000 := if_pos h

theorem toNat_srResult (b n : Word12) : (srResult b n).toNat = b.toNat / 2 ^ n.toNat := by
  rw [srResult_eq_ushiftRight, BitVec.toNat_ushiftRight, Nat.shiftRight_eq_div_pow]

theorem getLsbD_srResult (b n : Word12) (k : Nat) : (srResult b n).getLsbD k = b.getLsbD (k + n.toNat) := by
  rw [srResult_eq_ushiftRight, BitVec.getLsbD_ushiftRight, Nat.add_comm]

theorem getLsbD_andResult (b a : Word12) (k : Nat) : (andResult b a).getLsbD k = (b.getLsbD k && a.getLsbD k) :=
  BitVec.getLsbD_and

theorem getLsbD_orResult (b a : Word12) (k : Nat) : (orResult b a).getLsbD k = (b.getLsbD k || a.getLsbD k) :=
  BitVec.getLsbD_or

/-- Inverting against 0xFFF is the complement of every bit (R139). -/
theorem notResult_eq_not (b : Word12) : notResult b = ~~~b := BitVec.xor_allOnes

theorem toNat_notResult (b : Word12) : (notResult b).toNat = 4095 - b.toNat := by
  rw [notResult_eq_not, BitVec.toNat_not]

theorem getLsbD_notResult (b : Word12) {k : Nat} (hk : k < 12) : (notResult b).getLsbD k = !b.getLsbD k := by
  rw [notResult_eq_not, BitVec.getLsbD_not]
  simp [hk]

/-! ## The instructions -/

/-- Settles O18: `nop` is the end of its slot and nothing else. -/
theorem nopOnlyAdvances : Obligations.NopOnlyAdvances :=
  ⟨encodedAs_selector .nop, fun s => ⟨s.advancePc, rfl, frame_advancePc s, ⟨rfl, rfl⟩, pcAdvanced_of_pc_eq rfl⟩⟩

/-- Settles O19, from the template of R120 with the value moved. -/
theorem movesAssignTheDestination : Obligations.MovesAssignTheDestination :=
  ⟨fun _ _ _ => ⟨encodedAs_selector _, stopsAsListed _ _, fun _ => execSeti_completes⟩,
    fun _ _ _ => ⟨encodedAs_selector _, stopsAsListed _ _, fun _ _ => execSet_completes⟩⟩

/-- Settles O20: the sum of two 12-bit words is that of their numbers modulo 4096. -/
theorem additionIsModulo4096 : Obligations.AdditionIsModulo4096 := by
  refine ⟨fun s imm dst => ⟨encodedAs_selector _, stopsAsListed _ _, fun d hd hv => ?_⟩,
    fun s src dst => ⟨encodedAs_selector _, stopsAsListed _ _, fun r d hr hd hv => ?_⟩⟩
  · obtain ⟨t, he, hreg, hw⟩ := aluImm_completes hd hv
    exact ⟨t, he, hreg ▸ toNat_addResult _ _, hw⟩
  · obtain ⟨t, he, hreg, hw⟩ := aluReg_completes hr hd hv
    exact ⟨t, he, hreg ▸ toNat_addResult _ _, hw⟩

/-- Settles O21: the product of two 12-bit words is that of their numbers modulo 4096. -/
theorem multiplicationKeepsTheLowBits : Obligations.MultiplicationKeepsTheLowBits := by
  refine ⟨fun s imm dst => ⟨encodedAs_selector _, stopsAsListed _ _, fun d hd hv => ?_⟩,
    fun s src dst => ⟨encodedAs_selector _, stopsAsListed _ _, fun r d hr hd hv => ?_⟩⟩
  · obtain ⟨t, he, hreg, hw⟩ := aluImm_completes hd hv
    exact ⟨t, he, hreg ▸ toNat_mulResult _ _, hw⟩
  · obtain ⟨t, he, hreg, hw⟩ := aluReg_completes hr hd hv
    exact ⟨t, he, hreg ▸ toNat_mulResult _ _, hw⟩

/-- Settles O22: the operation is applied to the register first, and borrows 4096 where the difference is negative. -/
theorem subtractionIsSecondMinusFirst : Obligations.SubtractionIsSecondMinusFirst := by
  refine ⟨fun s imm dst => ⟨encodedAs_selector _, stopsAsListed _ _, fun d hd hv => ?_⟩,
    fun s src dst => ⟨encodedAs_selector _, stopsAsListed _ _, fun r d hr hd hv => ?_⟩⟩
  · obtain ⟨t, he, hreg, hw⟩ := aluImm_completes hd hv
    exact ⟨t, he, hreg ▸ toNat_subResult _ _, hw⟩
  · obtain ⟨t, he, hreg, hw⟩ := aluReg_completes hr hd hv
    exact ⟨t, he, hreg ▸ toNat_subResult _ _, hw⟩

/-- Settles O23: the result is the 12-bit left shift by the whole amount. -/
theorem leftShiftMovesBitsUp : Obligations.LeftShiftMovesBitsUp := by
  refine ⟨fun s imm dst => ⟨encodedAs_selector _, stopsAsListed _ _, fun d hd hv => ?_⟩,
    fun s src dst => ⟨encodedAs_selector _, stopsAsListed _ _, fun r d hr hd hv => ?_⟩⟩
  · obtain ⟨t, he, hreg, hw⟩ := aluImm_completes hd hv
    exact ⟨t, he, hreg ▸ slResult_of_le, fun _ => hreg ▸ toNat_slResult _ _,
      fun _ hk => hreg ▸ getLsbD_slResult _ _ hk, hw⟩
  · obtain ⟨t, he, hreg, hw⟩ := aluReg_completes hr hd hv
    exact ⟨t, he, hreg ▸ slResult_of_le, fun _ => hreg ▸ toNat_slResult _ _,
      fun _ hk => hreg ▸ getLsbD_slResult _ _ hk, hw⟩

/-- Settles O24: the result is the logical right shift by the whole amount. -/
theorem rightShiftMovesBitsDown : Obligations.RightShiftMovesBitsDown := by
  refine ⟨fun s imm dst => ⟨encodedAs_selector _, stopsAsListed _ _, fun d hd hv => ?_⟩,
    fun s src dst => ⟨encodedAs_selector _, stopsAsListed _ _, fun r d hr hd hv => ?_⟩⟩
  · obtain ⟨t, he, hreg, hw⟩ := aluImm_completes hd hv
    exact ⟨t, he, hreg ▸ srResult_of_le, fun _ => hreg ▸ toNat_srResult _ _,
      fun _ => hreg ▸ getLsbD_srResult _ _ _, hw⟩
  · obtain ⟨t, he, hreg, hw⟩ := aluReg_completes hr hd hv
    exact ⟨t, he, hreg ▸ srResult_of_le, fun _ => hreg ▸ toNat_srResult _ _,
      fun _ => hreg ▸ getLsbD_srResult _ _ _, hw⟩

/-- Settles O25, bit by bit. -/
theorem andAndOrActOnEachBit : Obligations.AndAndOrActOnEachBit := by
  refine ⟨fun s imm dst => ⟨encodedAs_selector _, stopsAsListed _ _, fun d hd hv => ?_⟩,
    fun s src dst => ⟨encodedAs_selector _, stopsAsListed _ _, fun r d hr hd hv => ?_⟩,
    fun s imm dst => ⟨encodedAs_selector _, stopsAsListed _ _, fun d hd hv => ?_⟩,
    fun s src dst => ⟨encodedAs_selector _, stopsAsListed _ _, fun r d hr hd hv => ?_⟩⟩
  · obtain ⟨t, he, hreg, hw⟩ := aluImm_completes hd hv
    exact ⟨t, he, hreg ▸ getLsbD_andResult _ _, hw⟩
  · obtain ⟨t, he, hreg, hw⟩ := aluReg_completes hr hd hv
    exact ⟨t, he, hreg ▸ getLsbD_andResult _ _, hw⟩
  · obtain ⟨t, he, hreg, hw⟩ := aluImm_completes hd hv
    exact ⟨t, he, hreg ▸ getLsbD_orResult _ _, hw⟩
  · obtain ⟨t, he, hreg, hw⟩ := aluReg_completes hr hd hv
    exact ⟨t, he, hreg ▸ getLsbD_orResult _ _, hw⟩

/-- Settles O26: inverting against 0xFFF is the complement, as a number and per bit. -/
theorem notIsTheOnesComplement : Obligations.NotIsTheOnesComplement := by
  refine fun s dst => ⟨encodedAs_selector _, stopsAsListed _ _, fun d hd hv => ?_⟩
  obtain ⟨t, he, hreg, hw⟩ := execNot_completes hd hv
  exact ⟨t, he, hreg ▸ toNat_notResult _, fun _ hk => hreg ▸ getLsbD_notResult _ hk, hw⟩

end Sys2Proof.Machine

/-! PROOF. The eight jumps (spec 41_jumps R150 to R159). -/

namespace Sys2Proof.Machine

/-! ## The template of R150 -/

/-- The reads and the branch do nothing but set the pc, taken or not (R150). -/
theorem jumpsOnly_branch (s : State) (reads : List Reg) (taken : Bool) (target : Word12) :
    JumpsOnly s ((s.afterReads reads).branch taken target) reads :=
  ⟨⟨fun _ _ => ⟨rfl, rfl⟩, fun _ _ => rfl, rfl, rfl, rfl, rfl, rfl⟩, rfl, rfl⟩

/-- A branch that is taken goes to its target. -/
theorem State.branch_pc_of_taken (s : State) {taken : Bool} (target : Word12) (h : taken = true) :
    (s.branch taken target).pc = target := by
  simp [State.branch, h]

/-- A branch that is not taken goes to the next word. -/
theorem State.branch_pc_of_not_taken (s : State) {taken : Bool} (target : Word12) (h : taken = false) :
    (s.branch taken target).pc = s.pc + 1 := by
  simp [State.branch, h]

section

variable {s : State} {c : Condition} {implicit : List Reg} {target src tested : Word12} {r d : Reg}

/-- The end of every template of R150: what no shadow forbids goes to the target exactly if taken, and does nothing
else. -/
theorem guarded_branch_completes {reads : List Reg} {taken : Bool} (hv : ¬ s.Violates ⟨reads, [], none⟩) :
    ∃ t, (s.guarded ⟨reads, [], none⟩ fun s' => .next (s'.branch taken target)) = .next t ∧
      (taken = true → t.pc = target) ∧ (taken = false → PcAdvanced s t) ∧ JumpsOnly s t reads :=
  ⟨_, guarded_of_not_violates hv _, State.branch_pc_of_taken _ target,
    fun h => pcAdvanced_of_pc_eq (State.branch_pc_of_not_taken _ target h), jumpsOnly_branch s reads taken target⟩

theorem jumpImm_completes (hd : Names tested d) (hv : ¬ s.Violates ⟨d :: implicit, [], none⟩) :
    ∃ t, jumpImm c implicit target tested s = .next t ∧
      (c s [] d = true → t.pc = target) ∧ (c s [] d = false → PcAdvanced s t) ∧ JumpsOnly s t (d :: implicit) := by
  rw [jumpImm, withReg_of_names hd]
  exact guarded_branch_completes hv

theorem jumpReg_completes (hr : Names src r) (hd : Names tested d)
    (hv : ¬ s.Violates ⟨r :: d :: implicit, [], none⟩) :
    ∃ t, jumpReg c implicit src tested s = .next t ∧
      (c s [r] d = true → t.pc = s.value [] r) ∧ (c s [r] d = false → PcAdvanced s t) ∧
      JumpsOnly s t (r :: d :: implicit) := by
  rw [jumpReg, withReg_of_names hr, withReg_of_names hd]
  exact guarded_branch_completes hv

theorem execJmp_completes (hr : Names src r) (hv : ¬ s.Violates ⟨[r], [], none⟩) :
    ∃ t, execJmp src s = .next t ∧ t.pc = s.value [] r ∧ JumpsOnly s t [r] := by
  rw [execJmp, withReg_of_names hr]
  obtain ⟨t, he, htaken, _, hj⟩ := guarded_branch_completes hv
  exact ⟨t, he, htaken rfl, hj⟩

end

/-! ## The conditions (R154, R156, R158) -/

section

variable {s : State} {before : List Reg} {d : Reg}

theorem testsZero_iff : testsZero s before d = true ↔ (s.value before d).toNat = 0 := by
  simp [testsZero, isZero, BitVec.toNat_eq]

theorem testsZero_eq_false_iff : testsZero s before d = false ↔ (s.value before d).toNat ≠ 0 := by
  rw [← Bool.not_eq_true, testsZero_iff]

theorem testsLess_iff :
    testsLess s before d = true ↔ (s.value before d).toNat < (s.value (before ++ [d]) 8).toNat :=
  decide_eq_true_iff

theorem testsLess_eq_false_iff :
    testsLess s before d = false ↔ (s.value (before ++ [d]) 8).toNat ≤ (s.value before d).toNat := by
  rw [← Bool.not_eq_true, testsLess_iff, Nat.not_lt]

theorem testsGreater_iff :
    testsGreater s before d = true ↔ (s.value (before ++ [d]) 8).toNat < (s.value before d).toNat :=
  decide_eq_true_iff

theorem testsGreater_eq_false_iff :
    testsGreater s before d = false ↔ (s.value before d).toNat ≤ (s.value (before ++ [d]) 8).toNat := by
  rw [← Bool.not_eq_true, testsGreater_iff, Nat.not_lt]

end

/-! ## The instructions -/

/-- Settles O28: both are the branch that is always taken, `jmp` after the template of R150. -/
theorem unconditionalJumpsGoToTheTarget : Obligations.UnconditionalJumpsGoToTheTarget :=
  ⟨fun s target => ⟨encodedAs_selector _, s.branch true target, rfl, rfl, jumpsOnly_branch s [] true target⟩,
    fun _ _ => ⟨encodedAs_selector _, stopsAsListed _ _, fun _ => execJmp_completes⟩⟩

/-- Settles O29: the template of R150 with the condition that all 12 bits are zero. -/
theorem zeroJumpsTestTheRegister : Obligations.ZeroJumpsTestTheRegister := by
  refine ⟨fun s target tested => ⟨encodedAs_selector _, stopsAsListed _ _, fun d hd hv => ?_⟩,
    fun s src tested => ⟨encodedAs_selector _, stopsAsListed _ _, fun r d hr hd hv => ?_⟩⟩
  · obtain ⟨t, he, htaken, hnot, hj⟩ := jumpImm_completes hd hv
    exact ⟨t, he, fun h => htaken (testsZero_iff.2 h), fun h => hnot (testsZero_eq_false_iff.2 h), hj⟩
  · obtain ⟨t, he, htaken, hnot, hj⟩ := jumpReg_completes hr hd hv
    exact ⟨t, he, fun h => htaken (testsZero_iff.2 h), fun h => hnot (testsZero_eq_false_iff.2 h), hj⟩

/-- Settles O30: the template of R150 with the strict unsigned comparison, whose failure includes equality. -/
theorem lessJumpsCompareUnsigned : Obligations.LessJumpsCompareUnsigned := by
  refine ⟨fun s target tested => ⟨encodedAs_selector _, stopsAsListed _ _, fun d hd hv => ?_⟩,
    fun s src tested => ⟨encodedAs_selector _, stopsAsListed _ _, fun r d hr hd hv => ?_⟩⟩
  · obtain ⟨t, he, htaken, hnot, hj⟩ := jumpImm_completes hd hv
    exact ⟨t, he, fun h => htaken (testsLess_iff.2 h), fun h => hnot (testsLess_eq_false_iff.2 h), hj⟩
  · obtain ⟨t, he, htaken, hnot, hj⟩ := jumpReg_completes hr hd hv
    exact ⟨t, he, fun h => htaken (testsLess_iff.2 h), fun h => hnot (testsLess_eq_false_iff.2 h), hj⟩

/-- Settles O31: the template of R150 with the strict unsigned comparison the other way round. -/
theorem greaterJumpsCompareUnsigned : Obligations.GreaterJumpsCompareUnsigned := by
  refine ⟨fun s target tested => ⟨encodedAs_selector _, stopsAsListed _ _, fun d hd hv => ?_⟩,
    fun s src tested => ⟨encodedAs_selector _, stopsAsListed _ _, fun r d hr hd hv => ?_⟩⟩
  · obtain ⟨t, he, htaken, hnot, hj⟩ := jumpImm_completes hd hv
    exact ⟨t, he, fun h => htaken (testsGreater_iff.2 h), fun h => hnot (testsGreater_eq_false_iff.2 h), hj⟩
  · obtain ⟨t, he, htaken, hnot, hj⟩ := jumpReg_completes hr hd hv
    exact ⟨t, he, fun h => htaken (testsGreater_iff.2 h), fun h => hnot (testsGreater_eq_false_iff.2 h), hj⟩

end Sys2Proof.Machine

/-! PROOF. The loads and stores (spec 42_load_store R170 to R175). -/

namespace Sys2Proof.Machine

/-! ## The template of R170 -/

/-- A load leaves what a write of its destination leaves: the two differ only in the shadow record. -/
theorem frame_loaded (s : State) (reads : List Reg) (d : Reg) (operand : Option Reg) (a : Word12) :
    Frame s ((s.afterReads reads).loaded d operand a) reads [d] none := by
  obtain ⟨hframe, _⟩ := writesOnly_writeBack s reads d (s.memRead a)
  exact ⟨hframe.regs, hframe.ram, hframe.urom, hframe.halted, hframe.faultMark, hframe.params, hframe.freeCount⟩

theorem State.loaded_reg_self (s : State) (d : Reg) (operand : Option Reg) (a : Word12) :
    (s.loaded d operand a).reg d = s.memRead a :=
  s.setReg_reg_same d (s.memRead a)

theorem State.loaded_isWritten_self (s : State) (d : Reg) (operand : Option Reg) (a : Word12) :
    (s.loaded d operand a).isWritten d = true := by
  simp [State.loaded, State.advanceRam, State.setReg_isWritten]

/-- A store leaves every register, and every byte outside the word at its address (R57). -/
theorem frame_stored (s : State) (reads : List Reg) (operand : Option Reg) (a v : Word12) :
    Frame s ((s.afterReads reads).stored operand a v) reads [] (some a) where
  regs _ _ := ⟨rfl, rfl⟩
  ram _ hkey := Memory.byteAt_putWord_of_ne _ _ _ _ (hkey a rfl)
  urom := rfl
  halted := rfl
  faultMark := rfl
  params := rfl
  freeCount := rfl

theorem State.stored_ramWord_self (s : State) (operand : Option Reg) (a v : Word12) :
    (s.stored operand a v).ramWord a = zext32 v :=
  s.memWrite_ramWord_self a v

section

variable {s : State} {reads : List Reg} {d : Reg} {operand : Option Reg} {a v : Word12}

/-- The end of every load's template: what no shadow forbids leaves the word's low 12 bits in the destination and the
load in the shadow record, and does nothing else. -/
theorem guarded_loaded_completes (hv : ¬ s.Violates ⟨reads, [d], some (.load a)⟩) :
    ∃ t, (s.guarded ⟨reads, [d], some (.load a)⟩ fun s' => .next (s'.loaded d operand a)) = .next t ∧
      (t.reg d).toNat = (s.ramWord a).toNat % 4096 ∧ Frame s t reads [d] none ∧ t.isWritten d = true ∧
      SlotOver s t (some (.load d operand a)) ∧ PcAdvanced s t := by
  refine ⟨_, guarded_of_not_violates hv _, ?_, frame_loaded s reads d operand a,
    State.loaded_isWritten_self _ d operand a, ⟨rfl, rfl⟩, pcAdvanced_of_pc_eq rfl⟩
  rw [State.loaded_reg_self, State.toNat_memRead, State.afterReads_ramWord]

/-- The end of every store's template: what no shadow forbids leaves the zero-extended value in the whole word and the
store in the shadow record, and does nothing else. -/
theorem guarded_stored_completes (hv : ¬ s.Violates ⟨reads, [], some (.store a)⟩) :
    ∃ t, (s.guarded ⟨reads, [], some (.store a)⟩ fun s' => .next (s'.stored operand a v)) = .next t ∧
      (t.ramWord a).toNat = v.toNat ∧ Frame s t reads [] (some a) ∧ SlotOver s t (some (.store operand a)) ∧
      PcAdvanced s t := by
  refine ⟨_, guarded_of_not_violates hv _, ?_, frame_stored s reads operand a v, ⟨rfl, rfl⟩, pcAdvanced_of_pc_eq rfl⟩
  rw [State.stored_ramWord_self, toNat_zext32]

end

/-! ## The instructions -/

/-- Settles O33: the load's template, at the immediate address or at the first register's value as read before the
destination is written. -/
theorem loadsReadTheLowBits : Obligations.LoadsReadTheLowBits := by
  refine ⟨fun s addr dst => ⟨encodedAs_selector _, stopsAsListed _ _, fun d hd hv => ?_⟩,
    fun s src dst => ⟨encodedAs_selector _, stopsAsListed _ _, fun r d hr hd hv => ?_⟩⟩
  · rw [exec, execLoadi, withReg_of_names hd]
    exact guarded_loaded_completes hv
  · rw [exec, execLoad, withReg_of_names hr, withReg_of_names hd]
    exact guarded_loaded_completes hv

/-- Settles O34: the store's template, with the second field as the address, never checked as a register number. -/
theorem storesWriteTheWholeWord : Obligations.StoresWriteTheWholeWord := by
  refine ⟨fun s value addr => ⟨encodedAs_selector _, stopsAsListed _ _, fun hv => ?_⟩,
    fun s src addr => ⟨encodedAs_selector _, stopsAsListed _ _, fun r hr hv => ?_⟩⟩
  · exact guarded_stored_completes hv
  · rw [exec, execStore, withReg_of_names hr]
    exact guarded_stored_completes hv

end Sys2Proof.Machine

/-! PROOF. The virtual instructions (spec 43_virtual_instructions R190 to R199). -/

namespace Sys2Proof.Machine

/-! ## A machine that has stopped -/

/-- Marking a machine with the fault it carries changes nothing, nor does the mark of a hang, which is none. -/
theorem State.mark_of_faultMark {s : State} {f : Fault} (h : s.faultMark = some f) : s.mark f = s := by
  cases s
  cases h
  cases f <;> rfl

/-- A marked machine's step is its fault, which leaves it as it is (R221). -/
theorem advance_of_faultMark {s : State} {f : Fault} (h : s.faultMark = some f) : advance s = s := by
  have hstep : step s = .fault f := by simp only [step, h]
  simp only [advance, hstep, State.mark_of_faultMark h]

/-- A halted machine, marked or not, stays as it is (R194, R235). -/
theorem advance_of_halted {s : State} (h : s.halted = true) : advance s = s := by
  cases hmark : s.faultMark with
  | some f => exact advance_of_faultMark hmark
  | none =>
    have hstep : step s = .next s := by simp only [step, hmark, h, if_true]
    simp only [advance, hstep]

theorem advanceBy_of_advance_eq {s : State} (h : advance s = s) (n : Nat) : advanceBy n s = s := by
  induction n with
  | zero => rfl
  | succ n ih => rw [advanceBy, h, ih]

/-! ## The free values' counter is no part of a register or of the RAM -/

theorem State.reg_withFreeCount (s : State) (k : Nat) (r : Reg) : { s with freeCount := k }.reg r = s.reg r := rfl

theorem State.isWritten_withFreeCount (s : State) (k : Nat) (r : Reg) :
    { s with freeCount := k }.isWritten r = s.isWritten r := rfl

theorem State.ramByte_withFreeCount (s : State) (k key : Nat) :
    { s with freeCount := k }.ramByte key = s.ramByte key := rfl

/-! ## The invocation -/

section

variable {s : State} {rs : List Reg} {src index : Word12} {r : Reg}

/-- What no shadow forbids of reads followed by more uses, it forbids of neither. -/
theorem not_violates_reads_append {reads writes : List Reg} :
    ¬ s.Violates ⟨rs ++ reads, writes, none⟩ ↔
      ¬ s.Violates ⟨rs, [], none⟩ ∧ ¬ s.Violates ⟨reads, writes, none⟩ := by
  simp only [State.Violates, shadowForbids_reads_append, and_or_left, exists_or, not_or]

/-- `mswt` that no shadow forbids invokes the function of the index its register reads as, after that read (R193). -/
theorem exec_mswt_of_names (hr : Names src r) (hv : ¬ s.Violates ⟨[r], [], none⟩) :
    exec (.mswt src) s = runVirtual (s.value [] r) (s.afterReads [r]) := by
  rw [exec, execMswt, withReg_of_names hr, guarded_of_not_violates hv]

theorem runVirtual_zero (s : State) : runVirtual 0 s = runHlt s := rfl

theorem runVirtual_one (s : State) : runVirtual 1 s = runDiv s := rfl

/-- There is no virtual function of index 2 or more (R198). -/
theorem runVirtual_of_two_le (s : State) (h : 2 ≤ index.toNat) :
    runVirtual index s = .fault (.undefinedVirtualFunction s.pc index) := by
  have h0 : index ≠ 0x000 := by rintro rfl; simp at h
  have h1 : index ≠ 0x001 := by rintro rfl; simp at h
  rw [runVirtual, if_neg h0, if_neg h1, raise]

/-! ## `hlt` -/

/-- Besides the halt bit, halting after reads changes only the shadow record and the free values' counter (R194). -/
theorem frame_halt (s : State) (rs : List Reg) :
    Frame s { (s.afterReads rs).halt with halted := s.halted } rs [] none where
  regs _ _ := ⟨rfl, rfl⟩
  ram _ _ := rfl
  urom := rfl
  halted := rfl
  faultMark := rfl
  params := rfl
  freeCount := rfl

/-- `hlt` after the reads `rs`, on a debug prototype: halted for good, and everything else as it was. -/
theorem runHlt_completes (rs : List Reg) (hd : s.params.debugPrototype = true) :
    ∃ t, runHlt (s.afterReads rs) = .next t ∧ t.halted = true ∧ t.pc = s.pc ∧
      Frame s { t with halted := s.halted } rs [] none ∧ SlotOver s t none ∧ ∀ n, advanceBy n t = t :=
  ⟨(s.afterReads rs).halt, if_pos hd, rfl, rfl, frame_halt s rs, ⟨rfl, rfl⟩,
    advanceBy_of_advance_eq (advance_of_halted rfl)⟩

theorem runHlt_of_not_debugPrototype (hd : s.params.debugPrototype = false) :
    runHlt s = .fault (.hltDisabled s.pc) := by
  simp only [runHlt, hd, raise, Bool.false_eq_true, if_false]

/-! ## `div` -/

/-- The quotient in register 2 is that of 12-bit unsigned division. -/
theorem State.divided_quotient_toNat (s : State) (n m ret : Word12) :
    ((s.divided n m ret).reg 2).toNat = n.toNat / m.toNat := by
  rw [State.divided_quotient, ← BitVec.udiv_def, BitVec.toNat_udiv]

/-- The remainder in register 0 is that of 12-bit unsigned division. -/
theorem State.divided_remainder_toNat (s : State) (n m ret : Word12) :
    ((s.divided n m ret).reg 0).toNat = n.toNat % m.toNat := by
  rw [State.divided_remainder, ← BitVec.umod_def, BitVec.toNat_umod]

/-- Register 9 is the only one `div` does not write (R196). -/
theorem eq_retReg_of_notMem_divWrites : ∀ r : Reg, r ∉ divWrites → r = 9 := by decide

/-- Besides the registers of `divWrites` and the free values drawn for them, `div` changes only the pc and the shadow
record (R195, R196). -/
theorem frame_divided (s : State) (rs : List Reg) (n m ret : Word12) :
    Frame s { (s.afterReads rs).divided n m ret with freeCount := s.freeCount + s.drawn rs } rs divWrites none where
  regs r hr := by
    obtain rfl := eq_retReg_of_notMem_divWrites r hr
    rw [State.reg_withFreeCount, State.isWritten_withFreeCount, State.divided_ret, State.divided_isWritten]
    exact ⟨rfl, rfl⟩
  ram key _ := by
    rw [State.ramByte_withFreeCount, State.ramByte, State.divided_ram, State.divided_params]
    rfl
  urom := State.divided_urom (s.afterReads rs) n m ret
  halted := State.divided_halted (s.afterReads rs) n m ret
  faultMark := State.divided_faultMark (s.afterReads rs) n m ret
  params := State.divided_params (s.afterReads rs) n m ret
  freeCount := rfl

/-- `div` that no shadow forbids, by a divisor that is not zero: the inputs are read before any write (R195). -/
theorem runDiv_of_ne_zero (hv : ¬ s.Violates ⟨divReads, divWrites, none⟩) (hm : s.value [0] 1 ≠ 0) :
    runDiv s =
      .next ((s.afterReads divReads).divided (s.value [] 0) (s.value [0] 1) (s.value [0, 1] 9)) := by
  rw [runDiv, guarded_of_not_violates (u := divUses) hv, if_neg hm]
  rfl

/-- `div` after the reads `rs`: the unsigned quotient and remainder of its inputs, read after `rs`, and what it leaves
unchanged. -/
theorem runDiv_completes (rs : List Reg) (hv : ¬ s.Violates ⟨rs ++ divReads, divWrites, none⟩)
    (hm : s.value (rs ++ [0]) 1 ≠ 0) :
    ∃ t, runDiv (s.afterReads rs) = .next t ∧
      (s.value rs 0).toNat = (s.value (rs ++ [0]) 1).toNat * (t.reg 2).toNat + (t.reg 0).toNat ∧
      (t.reg 0).toNat < (s.value (rs ++ [0]) 1).toNat ∧ t.pc = s.value (rs ++ [0, 1]) 9 ∧
      t.isWritten 0 = true ∧ t.isWritten 2 = true ∧
      (∀ r, r ∈ [1, 3, 4, 5, 6, 7, 8] → t.isWritten r = false) ∧
      Frame s { t with freeCount := s.freeCount + s.drawn (rs ++ divReads) } (rs ++ divReads) divWrites none ∧
      SlotOver s t none := by
  have hrun := runDiv_of_ne_zero (s := s.afterReads rs) (not_violates_reads_append.1 hv).2
    (by rwa [State.afterReads_value])
  simp only [State.afterReads_value, State.afterReads_afterReads, List.append_nil] at hrun
  have hpos : 0 < (s.value (rs ++ [0]) 1).toNat := BitVec.toNat_pos_of_ne_zero hm
  refine ⟨_, hrun, ?_, ?_, rfl, State.divided_isWritten _ _ _ _ 0, State.divided_isWritten _ _ _ _ 2, ?_,
    frame_divided s (rs ++ divReads) _ _ _, ⟨State.divided_last _ _ _ _, State.divided_beforeLast _ _ _ _⟩⟩
  · rw [State.divided_quotient_toNat, State.divided_remainder_toNat, Nat.div_add_mod]
  · rw [State.divided_remainder_toNat]
    exact Nat.mod_lt _ hpos
  · intro r hr
    rw [State.divided_isWritten, if_neg (by rintro (rfl | rfl) <;> simp at hr)]
    exact if_pos hr

end

/-! ## The instructions -/

/-- Settles O35: both forms invoke `hlt`, `mswt` after the read of its register. -/
theorem hltStopsOnlyADebugPrototype : Obligations.HltStopsOnlyADebugPrototype := by
  refine ⟨encodedAs_selector _, fun src => encodedAs_selector (.mswt src), fun _ => runHlt_completes [],
    fun s src r hr hv hi hd => ?_, fun _ => runHlt_of_not_debugPrototype, fun s src r hr hv hi hd => ?_⟩
  · rw [exec_mswt_of_names hr hv, hi]
    exact runHlt_completes [r] hd
  · rw [exec_mswt_of_names hr hv, hi]
    exact runHlt_of_not_debugPrototype hd

/-- Settles O36: the function of such an index is undefined whichever form invokes it. -/
theorem undefinedVirtualFunctionsFault : Obligations.UndefinedVirtualFunctionsFault := by
  refine ⟨fun s _ => runVirtual_of_two_le s, fun s src r hr hv hi => ?_⟩
  rw [exec_mswt_of_names hr hv]
  exact runVirtual_of_two_le _ hi

/-- Settles O37: both forms invoke `div`, `mswt` after the read of its register, which no shadow forbids either. -/
theorem divGivesQuotientAndRemainder : Obligations.DivGivesQuotientAndRemainder := by
  refine ⟨fun _ => runDiv_completes [], fun s src r hr hv hi hm => ?_⟩
  have hread : ¬ s.Violates ⟨[r], [], none⟩ := (not_violates_reads_append.1 hv).1
  rw [exec_mswt_of_names hr hread, hi]
  exact runDiv_completes [r] hv hm

end Sys2Proof.Machine

/-! PROOF. The fault as the end of a run (spec 60_exceptions R221, R235). -/

namespace Sys2Proof.Machine

/-- Every stop but a hang sets the mark, and nothing else. -/
theorem State.mark_of_ne_hang (s : State) {f : Fault} (h : ∀ pc, f ≠ .hang pc) :
    s.mark f = { s with faultMark := some f } := by
  cases f with
  | hang pc => exact absurd rfl (h pc)
  | _ => rfl

theorem advance_of_step_fault {s : State} {f : Fault} (h : step s = .fault f) : advance s = s.mark f := by
  simp only [advance, h]

theorem State.not_final_of_faultMark {s : State} {f : Fault} (h : s.faultMark = some f) : ¬ s.Final := by
  rintro ⟨_, hnone⟩
  simp [h] at hnone

/-- Settles O55: the first step marks the machine, and a marked machine stays as it is and is not final. -/
theorem faultsLeaveOnlyTheMark : Obligations.FaultsLeaveOnlyTheMark := by
  intro s f _ hstep hhang n
  have hrest : advanceBy (n + 1) s = { s with faultMark := some f } := by
    rw [advanceBy, advance_of_step_fault hstep, s.mark_of_ne_hang hhang]
    exact advanceBy_of_advance_eq (advance_of_faultMark rfl) n
  exact ⟨hrest, State.not_final_of_faultMark (by rw [hrest])⟩

end Sys2Proof.Machine

/-! PROOF. HazardViolation is raised only in a shadow that forbids the instruction (spec 70_reset_and_hazards R258,
R260). That every such instruction stops with it is `hazardStop_exec`. -/

namespace Sys2Proof.Machine

/-- A HazardViolation of the result names an operation of the shadow, one that forbids touching `u`. -/
def HazardOnlyIfForbidden (s : State) (u : Uses) (res : Result) : Prop :=
  ∀ op, res = .fault (.hazardViolation s.pc op) → s.InShadowOf op ∧ ShadowForbids s.params.hazardPolicy u op

section

variable {s : State} {u : Uses}

theorem HazardOnlyIfForbidden.of_ne {res : Result} (h : ∀ op, res ≠ .fault (.hazardViolation s.pc op)) :
    HazardOnlyIfForbidden s u res := fun op he => absurd he (h op)

theorem HazardOnlyIfForbidden.next (t : State) : HazardOnlyIfForbidden s u (.next t) := .of_ne (by simp)

/-- A field that names no register is InvalidRegister, so the instruction goes on with the register it names. -/
theorem HazardOnlyIfForbidden.withReg {f : Word12} {go : Reg → Result}
    (h : HazardOnlyIfForbidden s u (go (regIn f))) : HazardOnlyIfForbidden s u (s.withReg f go) := by
  rcases withReg_cases s f go with ⟨r, hr, he⟩ | ⟨_, he⟩
  · rwa [he, ← hr.regIn_eq]
  · exact he ▸ .of_ne (by simp)

/-- The shadow check of some of what the instruction touches, `v`, then the rest of it. -/
theorem HazardOnlyIfForbidden.guarded {v : Uses} {go : State → Result}
    (hsub : ∀ op, ShadowForbids s.params.hazardPolicy v op → ShadowForbids s.params.hazardPolicy u op)
    (h : HazardOnlyIfForbidden s u (go (s.afterReads v.reads))) : HazardOnlyIfForbidden s u (s.guarded v go) := by
  rcases guarded_cases s v go with ⟨_, he⟩ | ⟨op, hin, hf, he⟩
  · rwa [he]
  · intro op' he'
    obtain rfl : op = op' := by simpa [he] using he'
    exact ⟨hin, hsub op hf⟩

/-- The shadow check, then an effect that does not fault: the end of every template. -/
theorem HazardOnlyIfForbidden.guarded_next (u : Uses) (effect : State → State) :
    HazardOnlyIfForbidden s u (s.guarded u fun s' => .next (effect s')) :=
  .guarded (fun _ => id) (.next _)

theorem hazardOnlyIfForbidden_aluImm (op : Word12 → Word12 → Word12) (imm dst : Word12) :
    HazardOnlyIfForbidden s ⟨[regIn dst], [regIn dst], none⟩ (aluImm op imm dst s) :=
  .withReg (.guarded_next _ _)

theorem hazardOnlyIfForbidden_aluReg (op : Word12 → Word12 → Word12) (src dst : Word12) :
    HazardOnlyIfForbidden s ⟨[regIn src, regIn dst], [regIn dst], none⟩ (aluReg op src dst s) :=
  .withReg (.withReg (.guarded_next _ _))

theorem hazardOnlyIfForbidden_jumpImm (c : Condition) (implicit : List Reg) (target tested : Word12) :
    HazardOnlyIfForbidden s ⟨regIn tested :: implicit, [], none⟩ (jumpImm c implicit target tested s) :=
  .withReg (.guarded_next _ _)

theorem hazardOnlyIfForbidden_jumpReg (c : Condition) (implicit : List Reg) (src tested : Word12) :
    HazardOnlyIfForbidden s ⟨regIn src :: regIn tested :: implicit, [], none⟩ (jumpReg c implicit src tested s) :=
  .withReg (.withReg (.guarded_next _ _))

/-- What a shadow forbids of the reads before a virtual function, it forbids of the whole instruction. -/
theorem shadowForbids_virtualTouches_of_reads {p : HazardPolicy} {rs : List Reg} {op : RamOp} (index : Word12)
    (h : ShadowForbids p ⟨rs, [], none⟩ op) : ShadowForbids p (virtualTouches index rs) op := by
  unfold virtualTouches
  split_ifs
  · exact shadowForbids_reads_append.2 (.inl h)
  · exact h

/-- After the reads `rs`, `div` raises HazardViolation for what it touches itself. -/
theorem hazardOnlyIfForbidden_runDiv (rs : List Reg) :
    HazardOnlyIfForbidden s (virtualTouches 1 rs) (runDiv (s.afterReads rs)) := by
  refine HazardOnlyIfForbidden.guarded (s := s.afterReads rs)
    (fun op hf => shadowForbids_reads_append.2 (.inr hf)) ?_
  split_ifs
  · exact .of_ne (by simp)
  · exact .next _

/-- Of the virtual functions only `div` raises HazardViolation (R194, R198). -/
theorem hazardOnlyIfForbidden_runVirtual (index : Word12) (rs : List Reg) :
    HazardOnlyIfForbidden s (virtualTouches index rs) (runVirtual index (s.afterReads rs)) := by
  unfold runVirtual
  split_ifs with _ hdiv
  · unfold runHlt
    split_ifs
    · exact .next _
    · exact .of_ne (by simp [raise])
  · exact hdiv ▸ hazardOnlyIfForbidden_runDiv rs
  · exact .of_ne (by simp [raise])

end

theorem hazardOnlyIfForbidden_exec (i : Instr) (s : State) : HazardOnlyIfForbidden s (touches i s) (exec i s) := by
  cases i with
  | nop | jmpi => exact .next _
  | storei value addr => exact .guarded_next ⟨[], [], some (.store addr)⟩ (·.stored none addr value)
  | mswti => exact hazardOnlyIfForbidden_runVirtual _ []
  | mswt =>
    exact .withReg (.guarded (fun _ => shadowForbids_virtualTouches_of_reads _)
      (hazardOnlyIfForbidden_runVirtual _ _))
  | seti | not | jmp | loadi | store => exact .withReg (.guarded_next _ _)
  | set | load => exact .withReg (.withReg (.guarded_next _ _))
  | addi | muli | subi | sli | sri | andi | ori => exact hazardOnlyIfForbidden_aluImm _ _ _
  | add | mul | sub | sl | sr | and | or => exact hazardOnlyIfForbidden_aluReg _ _ _
  | zjmpi | ljmpi | gjmpi => exact hazardOnlyIfForbidden_jumpImm _ _ _ _
  | zjmp | ljmp | gjmp => exact hazardOnlyIfForbidden_jumpReg _ _ _ _

/-- Settles O43: an instruction that a shadow forbids stops with HazardViolation, and every HazardViolation names an
operation that forbids the instruction. -/
theorem hazardViolationExactlyInForbiddenShadows : Obligations.HazardViolationExactlyInForbiddenShadows := by
  intro i s hwf
  have hsound := hazardOnlyIfForbidden_exec i s
  refine ⟨⟨fun ⟨op, he⟩ => ⟨op, hsound op he⟩, fun hviolates => ?_⟩, hsound⟩
  obtain ⟨op, _, _, he⟩ := hazardStop_exec i s hwf hviolates
  exact ⟨op, he⟩

end Sys2Proof.Machine

/-! PROOF. What every next state keeps, by the inversion of `exec`, and the three invariants of every step (spec
20_memory sections 1 and 3, 70_reset_and_hazards section 3). -/

namespace Sys2Proof.Machine

section

variable {i : Instr} {s t : State}

/-! ## The frame of every instruction -/

/-- A frame that allows more writes allows what a narrower one does. -/
theorem Frame.mono {read written written' : List Reg} {stored stored' : Option Word12}
    (h : Frame s t read written stored) (hw : written ⊆ written') (hs : ∀ a, stored = some a → stored' = some a) :
    Frame s t read written' stored' where
  regs r hr := h.regs r fun hmem => hr (hw hmem)
  ram key hkey := h.ram key fun a ha => hkey a (hs a ha)
  urom := h.urom
  halted := h.halted
  faultMark := h.faultMark
  params := h.params
  freeCount := h.freeCount

/-- Besides the halt bit and the free values a `div` draws for the registers it clobbers, an instruction changes at
most the registers and the RAM word it is listed as writing. -/
theorem NextShape.frame (h : NextShape i s t) :
    Frame s { t with halted := s.halted, freeCount := s.freeCount + s.drawn (touches i s).reads }
      (touches i s).reads (touches i s).writes (storesTo i) := by
  cases h with
  | wrote d v h hw =>
    subst h
    exact (writesOnly_writeBack s _ d v).1.mono (fun _ hr => hw ▸ hr) (by simp)
  | moved next h hw hc =>
    subst h
    exact (jumpsOnly_branch s _ true next).1.mono (List.nil_subset _) (by simp)
  | loaded d o a h hw hn =>
    subst h
    exact (frame_loaded s _ d o a).mono (fun _ hr => hw ▸ hr) (by simp)
  | stored o a v h hs hn =>
    subst h
    exact (frame_stored s _ o a v).mono (List.nil_subset _) (by rintro _ ⟨⟩; exact hs)
  | halted h hc =>
    subst h
    exact (frame_halt s _).mono (List.nil_subset _) (by simp)
  | divided n m ret h hw hc =>
    subst h
    obtain ⟨hregs, hram, hurom, _, hmark, hparams, hcount⟩ := frame_divided s (touches i s).reads n m ret
    exact Frame.mono ⟨hregs, hram, hurom, rfl, hmark, hparams, hcount⟩ (fun _ hr => hw ▸ hr) (by simp)

/-- Settles O48: the RAM's part of the frame. -/
theorem onlyStoresChangeTheRam : Obligations.OnlyStoresChangeTheRam :=
  fun _ _ _ h => (exec_eq_next h).frame.ram

/-- Settles O50: the registers' part of the frame. -/
theorem instructionsWriteOnlyListedRegisters : Obligations.InstructionsWriteOnlyListedRegisters :=
  fun _ _ _ h => (exec_eq_next h).frame.regs

/-- A step that answers a next state changes neither the user ROM nor the parameters. -/
theorem step_keeps_urom_and_params (h : step s = .next t) : t.urom = s.urom ∧ t.params = s.params := by
  rcases step_eq_next h with ⟨_, rfl⟩ | ⟨i, _, h⟩
  · exact ⟨rfl, rfl⟩
  · have hframe := (exec_eq_next h).frame
    exact ⟨hframe.urom, hframe.params⟩

/-- Settles O49: no instruction writes the list of user ROM bytes, so no word of it changes. -/
theorem userRomAndParametersAreConstant : Obligations.UserRomAndParametersAreConstant := by
  intro s t h
  obtain ⟨hurom, hparams⟩ := step_keeps_urom_and_params h
  exact ⟨fun a => by rw [State.uromWord, State.uromWord, hurom], hparams⟩

/-! ## The RAM's list of bytes -/

/-- An instruction leaves the RAM's list as it is, or writes one whole zero-extended word (R57). -/
theorem NextShape.ram_cases (h : NextShape i s t) :
    t.ram = s.ram ∨ ∃ a v, t.ram = Memory.putWord s.ram a (zext32 v) := by
  cases h with
  | wrote d v h hw => exact .inl (by rw [h]; rfl)
  | moved next h hw hc => exact .inl (by rw [h]; rfl)
  | loaded d o a h hw hn => exact .inl (by rw [h]; rfl)
  | stored o a v h hs hn => exact .inr ⟨a, v, by rw [h]; rfl⟩
  | halted h hc => exact .inl (by rw [h]; rfl)
  | divided n m ret h hw hc => exact .inl (by rw [h, State.divided_ram, State.afterReads_ram])

theorem step_ram_cases (h : step s = .next t) :
    t.ram = s.ram ∨ ∃ a v, t.ram = Memory.putWord s.ram a (zext32 v) := by
  rcases step_eq_next h with ⟨_, rfl⟩ | ⟨i, _, h⟩
  · exact .inl rfl
  · exact (exec_eq_next h).ram_cases

/-- Settles O5: a step writes the RAM by whole words only, which keeps its keys rising, and nothing else. -/
theorem stepKeepsMemoriesCanonical : Obligations.StepKeepsMemoriesCanonical := by
  rintro s t h ⟨hram, hurom, hinit⟩
  obtain ⟨hurom', hparams⟩ := step_keeps_urom_and_params h
  refine ⟨?_, hurom'.symm ▸ hurom, hparams.symm ▸ hinit⟩
  rcases step_ram_cases h with he | ⟨a, v, he⟩
  · rwa [he]
  · rw [he]
    exact Memory.wf_putWord a (zext32 v) hram

/-- After a word is written, what is listed of it is its four bytes. -/
theorem Memory.find_putWord_self (m : Memory) (a : Word12) (w : Word32) :
    Memory.find (Memory.putWord m a w) (byteKey a 0) = some (w.extractLsb' 24 8) ∧
    Memory.find (Memory.putWord m a w) (byteKey a 1) = some (w.extractLsb' 16 8) ∧
    Memory.find (Memory.putWord m a w) (byteKey a 2) = some (w.extractLsb' 8 8) ∧
    Memory.find (Memory.putWord m a w) (byteKey a 3) = some (w.extractLsb' 0 8) := by
  simp [Memory.find_putWord, byteKey]

/-- After a word is written, what is listed of another is as before. -/
theorem Memory.find_putWord_of_ne (m : Memory) {a b : Word12} (w : Word32) (hne : b ≠ a) {k : Nat} (hk : k < 4) :
    Memory.find (Memory.putWord m a w) (byteKey b k) = Memory.find m (byteKey b k) := by
  simp [Memory.find_putWord, byteKey_inj hk, hne]

/-- Settles O6: a store lists all four bytes of a zero-extended value, and leaves what is listed of other words. -/
theorem stepKeepsStoredWordsNarrow : Obligations.StepKeepsStoredWordsNarrow := by
  intro s t h hs b
  rcases step_ram_cases h with he | ⟨a, v, he⟩
  · rw [he]
    exact hs b
  · rw [he]
    by_cases hb : b = a
    · subst hb
      exact .inr ⟨v, Memory.find_putWord_self s.ram b (zext32 v)⟩
    · have hsame {k : Nat} (hk : k < 4) := Memory.find_putWord_of_ne s.ram (zext32 v) hb hk
      rcases hs b with hnone | ⟨w, h0, h1, h2, h3⟩
      · exact .inl fun k hk => (hsame hk).trans (hnone k hk)
      · exact .inr ⟨w, (hsame (by decide)).trans h0, (hsame (by decide)).trans h1, (hsame (by decide)).trans h2,
          (hsame (by decide)).trans h3⟩

/-! ## The shadow record -/

/-- After an instruction the slot just over was no RAM operation, or it was one, which under the strict policy no
shadow forbade (R258 c). -/
theorem NextShape.shadow_cases (h : NextShape i s t) :
    t.shadow.last = none ∨
      t.shadow.beforeLast = s.shadow.last ∧ (s.params.hazardPolicy = .strict → s.NoShadow) := by
  cases h with
  | wrote d v h hw => exact .inl (by rw [h]; rfl)
  | moved next h hw hc => exact .inl (by rw [h]; rfl)
  | loaded d o a h hw hn =>
    obtain ⟨u, ha, hu⟩ := hn
    exact .inr ⟨by rw [h]; rfl, fun hp => noShadow_of_not_violates ha hp hu⟩
  | stored o a v h hs hn =>
    obtain ⟨u, ha, hu⟩ := hn
    exact .inr ⟨by rw [h]; rfl, fun hp => noShadow_of_not_violates ha hp hu⟩
  | halted h hc => exact .inl (by rw [h]; rfl)
  | divided n m ret h hw hc => exact .inl (by rw [h]; rfl)

/-- Settles O7: only a RAM operation enters the record, and under the strict policy it does so from no shadow. -/
theorem stepKeepsRamOperationsSpaced : Obligations.StepKeepsRamOperationsSpaced := by
  constructor
  · intro s t h hs hp
    obtain ⟨_, hparams⟩ := step_keeps_urom_and_params h
    rw [hparams] at hp
    rcases step_eq_next h with ⟨_, rfl⟩ | ⟨i, _, h⟩
    · exact hs hp
    · rcases (exec_eq_next h).shadow_cases with hlast | ⟨hbefore, hstrict⟩
      · exact .inl hlast
      · obtain ⟨hlast, _⟩ := hstrict hp
        exact .inr (hbefore.trans hlast)
  · rintro s t op ⟨hrun, _⟩ hp h hlast
    rcases step_eq_next h with ⟨hhalted, _⟩ | ⟨i, _, h⟩
    · simp [hrun] at hhalted
    · rcases (exec_eq_next h).shadow_cases with hnone | ⟨_, hstrict⟩
      · simp [hnone] at hlast
      · exact hstrict hp

end

end Sys2Proof.Machine

/-! PROOF. Encoding and decoding are inverse up to the unused fields (spec 30_encoding R81 to R93, 20_memory R54). -/

namespace Sys2Proof

/-! ## Bytes -/

/-- Decoding a word's image decodes the word, and leaves the bytes after it. -/
theorem decode_wordBytes_append {w : Word32} {i : Instr} (h : decodeWord w = some i) (rest : List Byte) :
    decode (wordBytes w ++ rest) = .ok (i, rest) := by
  simp only [wordBytes, List.cons_append, List.nil_append, decode, Machine.wordOfBytes_extract, h]

/-- Settles O8: the word of an instruction decodes to it, and is what its four bytes hold. -/
theorem decodeOfEncodeIsTheInstruction : Obligations.DecodeOfEncodeIsTheInstruction :=
  fun i rest => decode_wordBytes_append (decodeWord_encodeWord i) rest

/-- Settles O13, bit by bit: bit `k` of a byte of the image is a bit of the field laid out there. -/
theorem fourByteImageOfAnInstruction : Obligations.FourByteImageOfAnInstruction := by
  intro opc flg f s
  simp only [wordBytes, packWord, List.cons.injEq, and_true]
  refine ⟨?_, ?_, ?_, ?_⟩ <;>
  · apply BitVec.eq_of_getLsbD_eq
    intro k hk
    simp only [BitVec.getLsbD_extractLsb', BitVec.getLsbD_append]
    grind

/-- Settles O14, by decoding the written words. -/
theorem writtenWordsDecode : Obligations.WrittenWordsDecode := by
  unfold Obligations.WrittenWordsDecode
  decide

/-! ## The opcode map, row by row -/

/-- A word's instruction has the word's operand fields where it uses them, and zero elsewhere (R86, R92). -/
theorem fields_of_decodeWord {w : Word32} {i : Instr} (h : decodeWord w = some i) :
    i.fields = (if Machine.usesFirst i then firstOf w else 0, if Machine.usesSecond i then secondOf w else 0) := by
  simp only [decodeWord] at h
  split at h <;> cases h <;> rfl

/-- Settles O9: the encoder packs the row's selector and the two fields. -/
theorem encodeOfDecodeIsTheWordUsed : Obligations.EncodeOfDecodeIsTheWordUsed := by
  intro w i h
  rw [encodeWord, selector_of_decodeWord h, fields_of_decodeWord h]

/-- Every legal selector has a row (R87): the match's last arm is left to the selectors that are none of the 32. -/
theorem decodeWord_isSome_of_legal {w : Word32} (h : selOf w ∈ legalSelectors) : (decodeWord w).isSome = true := by
  unfold decodeWord
  split <;> simp_all [legalSelectors]

/-- Settles O10: a legal selector has a row, and each row's selector is legal. -/
theorem decoderAcceptsExactlyTheLegalSelectors : Obligations.DecoderAcceptsExactlyTheLegalSelectors := by
  refine ⟨by decide, by decide, fun w => ⟨fun h => ?_, decodeWord_isSome_of_legal⟩⟩
  obtain ⟨i, hi⟩ := Option.isSome_iff_exists.1 h
  exact selector_of_decodeWord hi ▸ selector_mem_legalSelectors i

/-- Settles O12: the two words have the same row, which takes from them the fields it uses. -/
theorem unusedFieldsAreIgnored : Obligations.UnusedFieldsAreIgnored := by
  intro w w' i h hsel hfirst hsecond
  simp only [decodeWord, hsel] at h ⊢
  split at h <;> cases h <;> simp_all [Machine.usesFirst, Machine.usesSecond]

end Sys2Proof

/-! PROOF. The mnemonics (spec 30_encoding R87, R98, R99). -/

namespace Sys2Proof.Asm

/-- The table of mnemonics lists the 32 legal selectors, each once. -/
theorem map_snd_mnemonics : mnemonics.map Prod.snd = legalSelectors := rfl

theorem nodup_legalSelectors : legalSelectors.Nodup := by decide

theorem mem_mnemonics_of_selectorOf {name : List Char} {sel : Byte} (h : selectorOf name = some sel) :
    (name, sel) ∈ mnemonics := by
  obtain ⟨l₁, l₂, he, _⟩ := List.lookup_eq_some_iff.1 h
  simp [he]

theorem legal_of_selectorOf {name : List Char} {sel : Byte} (h : selectorOf name = some sel) :
    sel ∈ legalSelectors :=
  map_snd_mnemonics ▸ List.mem_map_of_mem (f := Prod.snd) (mem_mnemonics_of_selectorOf h)

/-- No two names have the same selector: the table lists no selector twice. -/
theorem selectorOf_injective {name name' : List Char} {sel : Byte} (h : selectorOf name = some sel)
    (h' : selectorOf name' = some sel) : name' = name := by
  have hnodup : (mnemonics.map Prod.snd).Nodup := map_snd_mnemonics ▸ nodup_legalSelectors
  have hpair := List.inj_on_of_nodup_map hnodup (mem_mnemonics_of_selectorOf h') (mem_mnemonics_of_selectorOf h) rfl
  exact congrArg Prod.fst hpair

/-- Settles O59: the 32 rows by evaluation, the rest from the table's selectors being the legal ones, each once. -/
theorem mnemonicsFixTheSelector : Obligations.MnemonicsFixTheSelector := by
  have hdecodes : ∀ name sel f s, selectorOf name = some sel →
      ∃ i, decodeWord (packSel sel f s) = some i ∧ i.selector = sel := by
    intro name sel f s h
    have hlegal : selOf (packSel sel f s) ∈ legalSelectors := (selOf_packSel sel f s).symm ▸ legal_of_selectorOf h
    obtain ⟨i, hi⟩ := Option.isSome_iff_exists.1 (decodeWord_isSome_of_legal hlegal)
    exact ⟨i, hi, (selector_of_decodeWord hi).trans (selOf_packSel sel f s)⟩
  have hunique : ∀ name sel, selectorOf name = some sel → sel ∈ legalSelectors ∧
      ∀ name', selectorOf name' = some sel → name' = name :=
    fun _ _ h => ⟨legal_of_selectorOf h, fun _ => selectorOf_injective h⟩
  exact ⟨rfl, rfl, rfl, rfl, rfl, rfl, rfl, rfl, rfl, rfl, rfl, rfl, rfl, rfl, rfl, rfl, rfl, rfl, rfl, rfl, rfl, rfl,
    rfl, rfl, rfl, rfl, rfl, rfl, rfl, rfl, rfl, rfl, hunique, hdecodes⟩

end Sys2Proof.Asm

/-! PROOF. A program laid out in the user ROM, and the launch state (spec 70_reset_and_hazards sections 1 and 2). -/

namespace Sys2Proof.Machine

/-! ## Words laid out -/

/-- The word at an address after words are written from `a` on: the one written there, if the words reach it. -/
theorem Memory.wordAt_putWords (blank : Word12 → Word32) (b : Word12) (ws : List Word32) :
    ∀ (m : Memory) (a : Word12), ws.length ≤ 4096 →
      Memory.wordAt blank (Memory.putWords m a ws) b = ws.getD (b - a).toNat (Memory.wordAt blank m b) := by
  induction ws with
  | nil => intro m a _; rfl
  | cons w ws ih =>
    intro m a hlen
    rw [List.length_cons] at hlen
    rw [Memory.putWords, ih _ _ (by omega), Memory.wordAt_putWord]
    by_cases hb : b = a
    · subst hb
      have hlast : (b - (b + 1)).toNat = 4095 := by bv_omega
      rw [hlast, List.getD_eq_default _ _ (by omega), if_pos rfl, BitVec.sub_self]
      rfl
    · have hsucc : (b - a).toNat = (b - (a + 1)).toNat + 1 := by bv_omega
      rw [if_neg hb, hsucc, List.getD_cons_succ]

/-- The user ROM word at an address is the program's, if it is as long, else it is as before (R105, R253). -/
theorem State.loadProgram_uromWord (s : State) {image : List Word32} (hlen : image.length ≤ 4096) (a : Word12) :
    (s.loadProgram image).uromWord a = image.getD a.toNat (s.uromWord a) := by
  have hzero : a - 0 = a := BitVec.sub_zero a
  rw [State.uromWord, State.loadProgram, Memory.wordAt_putWords _ _ _ _ _ hlen, hzero, State.uromWord]

theorem State.loadProgram_uromWord_ofNat (s : State) {image : List Word32} (hlen : image.length ≤ 4096) {k : Nat}
    (h : k < image.length) : (s.loadProgram image).uromWord (BitVec.ofNat 12 k) = image[k] := by
  have hk : (BitVec.ofNat 12 k).toNat = k :=
    (BitVec.toNat_ofNat k 12).trans (Nat.mod_eq_of_lt (by omega))
  rw [s.loadProgram_uromWord hlen, hk, List.getD_eq_getElem _ _ h]

theorem State.loadProgram_uromWord_of_le (s : State) {image : List Word32} {a : Word12}
    (h : image.length ≤ a.toNat) : (s.loadProgram image).uromWord a = s.uromWord a := by
  rw [s.loadProgram_uromWord (h.trans a.isLt.le), List.getD_eq_default _ _ h]

/-- Settles O60: the loader writes the program's words, and nothing but the user ROM. -/
theorem loadedProgramsAreFetched : Obligations.LoadedProgramsAreFetched :=
  fun s image hlen => ⟨fun _ => s.loadProgram_uromWord_ofNat hlen, fun _ => s.loadProgram_uromWord_of_le,
    Memory.wf_putWords image 0, rfl⟩

/-! ## RAM_INIT -/

/-- Byte `i` of a memory's word, the most significant first, is the byte at its key (R53). -/
theorem Memory.extract_wordAt (blank : Word12 → Word32) (m : Memory) (a : Word12) {i : Nat} (h : i < 4) :
    (Memory.wordAt blank m a).extractLsb' (24 - 8 * i) 8 = Memory.byteAt blank m (byteKey a i) := by
  have himage := imageAt_eq_wordBytes blank m a
  simp only [Memory.imageAt, wordBytes, List.cons.injEq, and_true] at himage
  obtain ⟨h0, h1, h2, h3⟩ := himage
  interval_cases i
  · exact h0.symm
  · exact h1.symm
  · exact h2.symm
  · exact h3.symm

/-- Where no byte is listed, a memory over `m`'s words reads as `m`. -/
theorem Memory.byteAt_nil_wordAt (blank : Word12 → Word32) (m : Memory) {key : Nat} (h : key < 4 * 4096) :
    Memory.byteAt (Memory.wordAt blank m) [] key = Memory.byteAt blank m key := by
  have hkey : byteKey (BitVec.ofNat 12 (key / 4)) (key % 4) = key := by
    simp only [byteKey, BitVec.toNat_ofNat]
    omega
  have hmod : key % 4 < 4 := Nat.mod_lt _ (by decide)
  calc Memory.byteAt (Memory.wordAt blank m) [] key
    _ = (Memory.wordAt blank m (BitVec.ofNat 12 (key / 4))).extractLsb' (24 - 8 * (key % 4)) 8 := rfl
    _ = Memory.byteAt blank m key := by rw [Memory.extract_wordAt blank m _ hmod, hkey]

/-- At launch each byte that RAM_INIT gives is the RAM's (R38). -/
theorem State.launch_ramByte (p : Params) (image : List Word32) {key : Nat} {b : Byte} (hkey : key < 4 * 4096)
    (h : Memory.find p.ramInit key = some b) : (State.launch p image).ramByte key = b := by
  calc (State.launch p image).ramByte key
    _ = Memory.byteAt Config.ramInit p.ramInit key := Memory.byteAt_nil_wordAt _ _ hkey
    _ = b := by rw [Memory.byteAt, h, Option.getD_some]

/-- Settles O2: the launch state is reset's with the parameters, its RAM lists no byte, and the loader has written the
program. -/
theorem launchTakesItsArguments : Obligations.LaunchTakesItsArguments :=
  fun p image hlen => ⟨rfl, State.reset_isWritten, fun _ _ => State.launch_ramByte p image,
    Memory.wordAt_nil (ramInitWord p), fun _ => State.loadProgram_uromWord_ofNat _ hlen, rfl, rfl, ⟨rfl, rfl⟩, rfl⟩

/-! ## Reset -/

theorem State.reset_reg (r : Reg) : State.reset.reg r = Config.regReset r := by
  fin_cases r <;> rfl

/-- Settles O3: what reset's parameters do not give of RAM_INIT is the opaque `Config.ramInit`. -/
theorem resetValuesTheModelNames : Obligations.ResetValuesTheModelNames := by
  refine ⟨State.reset_reg, Memory.wordAt_nil _, fun a => ?_, rfl, rfl, rfl⟩
  rw [State.reset_ramWord]
  exact Memory.wordAt_nil _ a

/-- Settles O4: reset lists no byte and has seen no RAM operation. -/
theorem resetMeetsTheInvariants : Obligations.ResetMeetsTheInvariants :=
  ⟨⟨rfl, rfl, rfl⟩, fun _ => .inl fun _ _ => rfl, fun _ => .inl rfl⟩

/-! ## The step of a running machine -/

theorem step_of_fetch_ok {s : State} {i : Instr} (hs : s.Running) (h : s.fetch = .ok i) : step s = exec i s := by
  obtain ⟨hhalted, hmark⟩ := hs
  simp [step, hhalted, hmark, h]

/-- Settles O15: the fetch decodes the four bytes of the word at the pc. -/
theorem stepRunsTheDecodedInstruction : Obligations.StepRunsTheDecodedInstruction := by
  intro s i hs h
  refine step_of_fetch_ok hs ?_
  rw [State.fetch, imageAt_eq_wordBytes]
  simp only [State.uromWord] at h
  simp only [h]

/-- The word placed at the pc is the one there (log entry 5). -/
theorem State.withFetchWord_uromWord (s : State) (w : Word32) :
    (s.withFetchWord 32 w.toNat).uromWord (s.withFetchWord 32 w.toNat).pc = w := by
  have hw : BitVec.ofNat 32 (w.toNat % 2 ^ 32) = w := by
    rw [Nat.mod_eq_of_lt w.isLt, BitVec.ofNat_toNat, BitVec.setWidth_eq]
  calc (s.withFetchWord 32 w.toNat).uromWord s.pc
    _ = Memory.wordAt Config.uromInit (Memory.putWord s.urom s.pc (BitVec.ofNat 32 (w.toNat % 2 ^ 32))) s.pc := rfl
    _ = w := by rw [Memory.wordAt_putWord, if_pos rfl, hw]

/-- Settles O17: the machine runs, and fetches the word placed. -/
theorem placedWordIsTheNextExecuted : Obligations.PlacedWordIsTheNextExecuted := by
  intro s w i h
  refine step_of_fetch_ok ⟨rfl, rfl⟩ ?_
  rw [fetch_eq, s.withFetchWord_uromWord w, h]

end Sys2Proof.Machine

/-! PROOF. The words and addresses of ZAsm's items (spec 30_encoding R97, R101, R105, R106). -/

namespace Sys2Proof.Asm

/-! ## The words of one item -/

theorem encodeWord_nop : encodeWord .nop = 0x00000000 := by decide

/-- What an instruction assembles to is its own word, and after a `sync.` one, which only a load or store has, two
`nop` words (R101, R106). -/
theorem Item.words_instr_eq_ok {tags : List (List Char × Nat)} {addr : Nat} {sync : Bool} {sel : Byte}
    {first second : Operand} {ws : List Word32}
    (h : Item.words tags addr (.instr sync sel first second) = .ok ws) :
    ∃ f s, first.field tags addr = .ok f ∧ second.field tags addr = .ok s ∧
      ws = packSel sel f s :: if sync then [encodeWord .nop, encodeWord .nop] else [] := by
  simp only [Item.words] at h
  split at h
  · cases h
  · split at h
    · rename_i f s hf hs
      cases h
      exact ⟨f, s, hf, hs, rfl⟩
    · cases h
    · cases h

/-- Settles O56: the operands assemble to the same fields with `sync.` and without it. -/
theorem syncAddsTwoNops : Obligations.SyncAddsTwoNops := by
  intro tags addr sel first second ws h
  obtain ⟨f, s, hf, hs, rfl⟩ := Item.words_instr_eq_ok h
  cases hsel : isRamSel sel
  · simp [Item.words, hsel]
  · simp [Item.words, hsel, hf, hs, encodeWord_nop]

/-- An item assembles to as many words as it takes addresses. -/
theorem Item.length_words {tags : List (List Char × Nat)} {addr : Nat} {item : Item} {ws : List Word32}
    (h : item.words tags addr = .ok ws) : ws.length = item.size := by
  cases item with
  | comment | tagDef => cases h; rfl
  | instr sync =>
    obtain ⟨f, s, _, _, rfl⟩ := Item.words_instr_eq_ok h
    cases sync <;> rfl

/-! ## The words of a file -/

theorem length_emitFrom {tags : List (List Char × Nat)} {items : List Item} :
    ∀ {addr : Nat} {ws : List Word32}, emitFrom tags addr items = .ok ws → ws.length = sizeOf items := by
  induction items with
  | nil =>
    intro addr ws h
    cases h
    rfl
  | cons item items ih =>
    intro addr ws h
    simp only [emitFrom] at h
    split at h
    · rename_i ws' rest hitem hrest
      cases h
      rw [List.length_append, Item.length_words hitem, ih hrest]
      rfl
    · cases h
    · cases h

/-- A file that assembles defines no tag twice, and its image is what its items emit. -/
theorem assemble_eq_ok {items : List Item} {ws : List Word32} (h : assemble items = .ok ws) :
    distinctTags (tagsFrom 0 items) = true ∧ emitFrom (tagsFrom 0 items) 0 items = .ok ws := by
  simp only [assemble] at h
  split_ifs at h with hlong hrepeated
  exact ⟨by simpa using hrepeated, h⟩

/-! ## The tags -/

/-- The tags of items are those of the first ones, and those of the rest, which begin where the first ones end. -/
theorem tagsFrom_append (before after : List Item) :
    ∀ addr, tagsFrom addr (before ++ after) = tagsFrom addr before ++ tagsFrom (addr + sizeOf before) after := by
  induction before with
  | nil => intro addr; rfl
  | cons item before ih =>
    intro addr
    have hsize : sizeOf (item :: before) = item.size + sizeOf before := rfl
    cases item <;> simp [tagsFrom, ih, hsize, Item.size, Nat.add_assoc]

/-- Where no tag is defined twice, a tag is found wherever it stands. -/
theorem lookup_of_distinctTags {before after : List (List Char × Nat)} {name : List Char} {a : Nat}
    (h : distinctTags (before ++ (name, a) :: after) = true) :
    (before ++ (name, a) :: after).lookup name = some a := by
  induction before with
  | nil => simp
  | cons tag before ih =>
    obtain ⟨other, b⟩ := tag
    simp only [List.cons_append, distinctTags, Bool.and_eq_true, Option.isNone_iff_eq_none] at h
    obtain ⟨hother, hrest⟩ := h
    have hne : (name == other) = false := by
      refine beq_eq_false_iff_ne.2 ?_
      rintro rfl
      simp [ih hrest] at hother
    rw [List.cons_append, List.lookup_cons, hne]
    exact ih hrest

/-- Settles O58: each item emits its size in words, and the tags are collected with the same sizes. -/
theorem addressesAreCountedFromZero : Obligations.AddressesAreCountedFromZero := by
  constructor
  · intro items ws h
    exact length_emitFrom (assemble_eq_ok h).2
  · intro before name after ws h
    obtain ⟨hdistinct, _⟩ := assemble_eq_ok h
    have htags : tagsFrom 0 (before ++ .tagDef name :: after) =
        tagsFrom 0 before ++ (name, sizeOf before) :: tagsFrom (sizeOf before) after := by
      rw [tagsFrom_append, Nat.zero_add]
      rfl
    rw [htags] at hdistinct ⊢
    exact lookup_of_distinctTags hdistinct

end Sys2Proof.Asm

/-! PROOF. Whether an instruction completes, and where it stops (spec 60_exceptions section 1,
70_reset_and_hazards R258, R260). -/

namespace Sys2Proof.Machine

section

variable {i : Instr} {s t : State} {u : Uses}

/-! ## A register field and a shadow check that let an instruction go on -/

theorem withReg_completes {n : Word12} {go : Reg → Result} (hn : namesReg n = true)
    (h : ∃ t, go (regIn n) = .next t) : ∃ t, s.withReg n go = .next t := by
  rwa [withReg_of_names (names_regIn hn)]

/-- The shadow check, then an effect that does not fault: the end of every template. -/
theorem guarded_next_completes (h : ¬ s.Violates u) (effect : State → State) :
    ∃ t, (s.guarded u fun s' => .next (effect s')) = .next t :=
  ⟨_, guarded_of_not_violates h _⟩

theorem aluImm_next {op : Word12 → Word12 → Word12} {imm dst : Word12} (hd : namesReg dst = true)
    (h : ¬ s.Violates ⟨[regIn dst], [regIn dst], none⟩) : ∃ t, aluImm op imm dst s = .next t :=
  withReg_completes hd (guarded_next_completes h _)

theorem aluReg_next {op : Word12 → Word12 → Word12} {src dst : Word12} (hr : namesReg src = true)
    (hd : namesReg dst = true) (h : ¬ s.Violates ⟨[regIn src, regIn dst], [regIn dst], none⟩) :
    ∃ t, aluReg op src dst s = .next t :=
  withReg_completes hr (withReg_completes hd (guarded_next_completes h _))

theorem jumpImm_next {c : Condition} {im : List Reg} {target tested : Word12} (ht : namesReg tested = true)
    (h : ¬ s.Violates ⟨regIn tested :: im, [], none⟩) : ∃ t, jumpImm c im target tested s = .next t :=
  withReg_completes ht (guarded_next_completes h _)

theorem jumpReg_next {c : Condition} {im : List Reg} {src tested : Word12} (hr : namesReg src = true)
    (ht : namesReg tested = true) (h : ¬ s.Violates ⟨regIn src :: regIn tested :: im, [], none⟩) :
    ∃ t, jumpReg c im src tested s = .next t :=
  withReg_completes hr (withReg_completes ht (guarded_next_completes h _))

/-! ## The virtual functions -/

/-- `div` by zero, after its reads, never returns (R197). -/
theorem runDiv_of_eq_zero (hv : ¬ s.Violates ⟨divReads, divWrites, none⟩) (hm : s.value [0] 1 = 0) :
    runDiv s = .fault (.hang s.pc) := by
  rw [runDiv, guarded_of_not_violates (u := divUses) hv, if_pos hm]

/-- The reads before a virtual function are among what it touches. -/
theorem not_violates_reads_of_virtualTouches {index : Word12} {rs : List Reg}
    (hv : ¬ s.Violates (virtualTouches index rs)) : ¬ s.Violates ⟨rs, [], none⟩ :=
  fun ⟨op, hin, hf⟩ => hv ⟨op, hin, shadowForbids_virtualTouches_of_reads index hf⟩

/-- A virtual function that no shadow forbids, after the reads `rs`, completes or has one of three stops. -/
theorem runVirtual_completes_or_stops {index : Word12} {rs : List Reg}
    (hv : ¬ s.Violates (virtualTouches index rs)) :
    (∃ t, runVirtual index (s.afterReads rs) = .next t) ∨
      (2 ≤ index.toNat ∧
          runVirtual index (s.afterReads rs) = .fault (.undefinedVirtualFunction s.pc index)) ∨
        (index = 0 ∧ s.params.debugPrototype = false ∧
          runVirtual index (s.afterReads rs) = .fault (.hltDisabled s.pc)) ∨
        (index = 1 ∧ s.value (rs ++ [0]) 1 = 0 ∧ runVirtual index (s.afterReads rs) = .fault (.hang s.pc)) := by
  by_cases h0 : index = 0
  · subst h0
    rw [runVirtual_zero]
    cases hd : s.params.debugPrototype
    · exact .inr (.inr (.inl ⟨rfl, rfl, runHlt_of_not_debugPrototype hd⟩))
    · obtain ⟨t, he, _⟩ := runHlt_completes rs hd
      exact .inl ⟨t, he⟩
  by_cases h1 : index = 1
  · subst h1
    have hall : ¬ s.Violates ⟨rs ++ divReads, divWrites, none⟩ := hv
    by_cases hm : s.value (rs ++ [0]) 1 = 0
    · refine .inr (.inr (.inr ⟨rfl, hm, ?_⟩))
      rw [← State.afterReads_value] at hm
      exact runDiv_of_eq_zero (s := s.afterReads rs) (not_violates_reads_append.1 hall).2 hm
    · obtain ⟨t, he, _⟩ := runDiv_completes rs hall hm
      exact .inl ⟨t, he⟩
  · have h2 : 2 ≤ index.toNat := by bv_omega
    exact .inr (.inl ⟨h2, runVirtual_of_two_le _ h2⟩)

/-! ## Every instruction -/

/-- Settles O47: every template goes on where the fields name registers and no shadow forbids it, and ends in a next
state but for the virtual functions. -/
theorem wellFormedInstructionsComplete : Obligations.WellFormedInstructionsComplete := by
  intro i s hwf hv
  simp only [Instr.wellFormed, List.all_eq_true] at hwf
  cases i with
  | nop | jmpi => exact .inl ⟨_, rfl⟩
  | storei value addr => exact .inl (guarded_next_completes hv (·.stored none addr value))
  | mswti index =>
    exact (runVirtual_completes_or_stops hv).imp_right fun hstop => ⟨index, [], .inl ⟨rfl, rfl⟩, hstop⟩
  | mswt src =>
    rw [exec_mswt_of_names (names_regIn (hwf src (by simp [Instr.regFields])))
      (not_violates_reads_of_virtualTouches hv)]
    exact (runVirtual_completes_or_stops hv).imp_right fun hstop => ⟨_, _, .inr ⟨src, rfl, rfl, rfl⟩, hstop⟩
  | seti _ f | not f | jmp f | loadi _ f | store f =>
    exact .inl (withReg_completes (hwf f (by simp [Instr.regFields])) (guarded_next_completes hv _))
  | set f g | load f g =>
    exact .inl (withReg_completes (hwf f (by simp [Instr.regFields]))
      (withReg_completes (hwf g (by simp [Instr.regFields])) (guarded_next_completes hv _)))
  | addi _ f | muli _ f | subi _ f | sli _ f | sri _ f | andi _ f | ori _ f =>
    exact .inl (aluImm_next (hwf f (by simp [Instr.regFields])) hv)
  | add f g | mul f g | sub f g | sl f g | sr f g | and f g | or f g =>
    exact .inl (aluReg_next (hwf f (by simp [Instr.regFields])) (hwf g (by simp [Instr.regFields])) hv)
  | zjmpi _ f | ljmpi _ f | gjmpi _ f => exact .inl (jumpImm_next (hwf f (by simp [Instr.regFields])) hv)
  | zjmp f g | ljmp f g | gjmp f g =>
    exact .inl (jumpReg_next (hwf f (by simp [Instr.regFields])) (hwf g (by simp [Instr.regFields])) hv)

/-- An ill-formed instruction has a first field that names no register. -/
theorem exists_bad_field_of_not_wellFormed (h : i.wellFormed = false) :
    ∃ n, i.regFields.find? (fun n => !namesReg n) = some n := by
  simp only [Instr.wellFormed, List.all_eq_false] at h
  obtain ⟨n, hmem, hn⟩ := h
  exact Option.isSome_iff_exists.1 (List.find?_isSome.2 ⟨n, hmem, by simpa using hn⟩)

/-- Every instruction completes or faults: the two stops of its template, and what `WellFormedInstructionsComplete`
lists. -/
theorem exec_next_or_fault (i : Instr) (s : State) : (∃ t, exec i s = .next t) ∨ ∃ f, exec i s = .fault f := by
  obtain ⟨hbad, hforbidden⟩ := stopsAsListed i s
  cases hwf : i.wellFormed with
  | false =>
    obtain ⟨n, hn⟩ := exists_bad_field_of_not_wellFormed hwf
    exact .inr ⟨_, hbad n hn⟩
  | true =>
    by_cases hv : s.Violates (touches i s)
    · obtain ⟨op, _, _, he⟩ := hforbidden hwf hv
      exact .inr ⟨_, he⟩
    · rcases wellFormedInstructionsComplete i s hwf hv with hnext | ⟨_, _, _, ⟨_, he⟩ | ⟨_, _, he⟩ | ⟨_, _, he⟩⟩
      · exact .inl hnext
      · exact .inr ⟨_, he⟩
      · exact .inr ⟨_, he⟩
      · exact .inr ⟨_, he⟩

/-- Settles O46: an instruction completes or faults, and a step that executes none answers its state or a fault. -/
theorem noInstructionIsRefused : Obligations.NoInstructionIsRefused := by
  have hexec : ∀ i s r, exec i s ≠ .refused r := by
    intro i s r hr
    rcases exec_next_or_fault i s with ⟨t, he⟩ | ⟨f, he⟩ <;> simp [he] at hr
  refine ⟨hexec, fun s r hr => ?_⟩
  simp only [step] at hr
  split at hr
  · cases hr
  · split_ifs at hr
    split at hr
    · exact hexec _ _ _ hr
    · cases hr

/-- An instruction that completes is well formed. -/
theorem wellFormed_of_exec_eq_next (h : exec i s = .next t) : i.wellFormed = true := by
  by_contra hwf
  obtain ⟨n, hn⟩ := exists_bad_field_of_not_wellFormed (Bool.not_eq_true _ ▸ hwf)
  simp [(stopsAsListed i s).1 n hn] at h

/-- No shadow forbids an instruction that completes. -/
theorem not_violates_of_exec_eq_next (h : exec i s = .next t) : ¬ s.Violates (touches i s) := by
  intro hv
  obtain ⟨op, _, _, he⟩ := hazardStop_exec i s (wellFormed_of_exec_eq_next h) hv
  simp [he] at h

/-! ## Particular shadows -/

/-- A machine that is not without a shadow is in that of an operation. -/
theorem exists_inShadowOf_of_not_noShadow (h : ¬ s.NoShadow) : ∃ op, s.InShadowOf op := by
  rw [State.NoShadow, not_and_or] at h
  rcases h with h | h
  · obtain ⟨op, hop⟩ := Option.ne_none_iff_exists'.1 h
    exact ⟨op, .inl hop⟩
  · obtain ⟨op, hop⟩ := Option.ne_none_iff_exists'.1 h
    exact ⟨op, .inr hop⟩

/-- `div` reads or writes every register. -/
theorem mem_divReads_or_mem_divWrites : ∀ r : Reg, r ∈ divReads ∨ r ∈ divWrites := by decide

theorem mem_divWrites_of_ne : ∀ r : Reg, r ≠ 9 → r ∈ divWrites := by decide

/-- Settles O44: clause (c) of R258 for the RAM instructions; for `div`, clauses (a) and (b) for the destination of a
load, and the store clause. -/
theorem strictShadowForbidsRamAndDiv : Obligations.StrictShadowForbidsRamAndDiv := by
  constructor
  · intro i s hwf haccess hp hshadow
    obtain ⟨op, hin⟩ := exists_inShadowOf_of_not_noShadow hshadow
    obtain ⟨a, ha⟩ := Option.ne_none_iff_exists'.1 haccess
    obtain ⟨op', hin', _, he⟩ := hazardStop_exec i s hwf ⟨op, hin, .inr (.inr ⟨a, ha, .inl hp⟩)⟩
    exact ⟨op', hin', he⟩
  · intro s op hin hop
    have hforbids : ShadowForbids s.params.hazardPolicy (touches (.mswti 1) s) op := by
      rcases hop with ⟨d, o, a, rfl⟩ | ⟨r, a, hr, rfl⟩
      · exact .inl ⟨d, rfl, mem_divReads_or_mem_divWrites d⟩
      · exact .inr (.inl ⟨r, rfl, mem_divWrites_of_ne r hr⟩)
    obtain ⟨op', hin', _, he⟩ := hazardStop_exec (.mswti 1) s rfl ⟨op, hin, hforbids⟩
    exact ⟨op', hin', he⟩

/-- In the shadow of a `storei` alone, under the other policy, only a load of its address is forbidden (R260). -/
theorem violates_dependencyOnly_iff {a : Word12} (hp : s.params.hazardPolicy = .dependencyOnly)
    (hlast : s.shadow.last = some (.store none a)) (hbefore : s.shadow.beforeLast = none) :
    s.Violates u ↔ u.access = some (.load a) := by
  simp [State.Violates, State.InShadowOf, ShadowForbids, AccessForbidden, RamOp.dest, RamOp.operand, hp, hlast,
    hbefore]

/-- Settles O45: the only shadow is that of the `storei`, which forbids a load of its address and nothing else. -/
theorem dependencyOnlyForbidsTheSameAddress : Obligations.DependencyOnlyForbidsTheSameAddress := by
  intro s a hp hlast hbefore
  have hiff {u : Uses} := violates_dependencyOnly_iff (u := u) hp hlast hbefore
  refine ⟨fun dst d hd => ?_, fun b dst d hd hb => ?_, fun v b => ?_⟩
  · have hwf : (Instr.loadi a dst).wellFormed = true := by
      simp [Instr.wellFormed, Instr.regFields, namesReg_iff.2 ⟨d, hd⟩]
    obtain ⟨op, hin, _, he⟩ := hazardStop_exec (.loadi a dst) s hwf (hiff.2 rfl)
    obtain rfl : op = .store none a := by simpa [State.InShadowOf, hlast, hbefore, eq_comm] using hin
    exact he
  · exact withReg_completes (namesReg_iff.2 ⟨d, hd⟩)
      (guarded_next_completes (hiff.not.2 (by simpa using hb)) _)
  · exact guarded_next_completes (hiff.not.2 (by simp)) (·.stored none b v)

end

end Sys2Proof.Machine

/-! PROOF. The free values an instruction draws, and the end of a run (spec 10_state section 6,
43_virtual_instructions section 3, 60_exceptions section 6). -/

namespace Sys2Proof.Machine

section

variable {i : Instr} {s t : State} {reads : List Reg} {src : Word12} {r : Reg}

/-! ## `div`, invoked by either form -/

/-- The instruction invokes `div`, and the two of them read `reads`, in order. -/
def InvokesDiv (i : Instr) (s : State) (reads : List Reg) : Prop :=
  i = .mswti 1 ∧ reads = divReads ∨
    ∃ src r, i = .mswt src ∧ Names src r ∧ s.value [] r = 1 ∧ reads = r :: divReads

/-- What `mswt` answers, if it completes, is what the function of its register's index answers after that read. -/
theorem exec_mswt_eq_next (h : exec (.mswt src) s = .next t) :
    ∃ r, Names src r ∧ runVirtual (s.value [] r) (s.afterReads [r]) = .next t := by
  obtain ⟨r, hr, h⟩ := withReg_eq_next h
  obtain ⟨_, h⟩ := guarded_eq_next h
  exact ⟨r, hr, h⟩

/-- `div` that completes, whichever form invokes it, is a division after its reads. -/
theorem InvokesDiv.exec_eq_next (hi : InvokesDiv i s reads) (h : exec i s = .next t) :
    ∃ n m ret, t = (s.afterReads reads).divided n m ret := by
  rcases hi with ⟨rfl, rfl⟩ | ⟨src, r, rfl, hr, hv, rfl⟩
  · rcases runVirtual_eq_next (index := 1) h with ⟨h0, _⟩ | ⟨_, _, _, h⟩
    · simp at h0
    · exact ⟨_, _, _, h⟩
  · obtain ⟨q, hq, h⟩ := exec_mswt_eq_next h
    obtain rfl : q = r := hq.regIn_eq.symm.trans hr.regIn_eq
    rcases runVirtual_eq_next h with ⟨h0, _⟩ | ⟨_, _, _, h⟩
    · simp [hv] at h0
    · exact ⟨_, _, _, by rw [h, State.afterReads_afterReads]; rfl⟩

/-- A virtual function that is not `div` touches nothing besides the reads before it. -/
theorem virtualTouches_of_ne_one {index : Word12} (rs : List Reg) (h : index ≠ 1) :
    virtualTouches index rs = ⟨rs, [], none⟩ := if_neg h

/-- Only an instruction that invokes `div` writes what `div` does. -/
theorem invokesDiv_of_writes (hwf : i.wellFormed = true) (h : (touches i s).writes = divWrites) :
    InvokesDiv i s (touches i s).reads := by
  cases i with
  | mswti index =>
    by_cases hi : index = 1
    · subst hi
      exact .inl ⟨rfl, rfl⟩
    · rw [touches, virtualTouches_of_ne_one _ hi] at h
      cases h
  | mswt src =>
    have hr : Names src (regIn src) := names_regIn (by simpa [Instr.wellFormed, Instr.regFields] using hwf)
    by_cases hi : s.value [] (regIn src) = 1
    · exact .inr ⟨src, regIn src, rfl, hr, hi, by rw [touches, hi]; rfl⟩
    · rw [touches, virtualTouches_of_ne_one _ hi] at h
      cases h
  | _ => simp [touches, divWrites] at h

/-- The fields `div` leaves in the registers of DIV_CLOBBERS: the next seven free values (log entry 8). -/
theorem State.divided_clobbers (s : State) (n m ret : Word12) :
    (s.divided n m ret).reg 1 = Config.freeValue s.freeCount ∧
    (s.divided n m ret).reg 3 = Config.freeValue (s.freeCount + 1) ∧
    (s.divided n m ret).reg 4 = Config.freeValue (s.freeCount + 2) ∧
    (s.divided n m ret).reg 5 = Config.freeValue (s.freeCount + 3) ∧
    (s.divided n m ret).reg 6 = Config.freeValue (s.freeCount + 4) ∧
    (s.divided n m ret).reg 7 = Config.freeValue (s.freeCount + 5) ∧
    (s.divided n m ret).reg 8 = Config.freeValue (s.freeCount + 6) := by
  simp [State.divided, State.setReg_reg, Config.divClobbers, State.drawRegs, State.drawReg_reg]

/-- Settles O38: the division draws its free values after those of the reads. -/
theorem divLeavesFreeValues : Obligations.DivLeavesFreeValues := by
  intro i s t reads hi h
  obtain ⟨n, m, ret, rfl⟩ := InvokesDiv.exec_eq_next hi h
  obtain ⟨h1, h3, h4, h5, h6, h7, h8⟩ := (s.afterReads reads).divided_clobbers n m ret
  exact ⟨h1, h3, h4, h5, h6, h7, h8, State.divided_freeCount _ _ _ _⟩

/-- A machine whose step hangs keeps its state, which is not marked (log entry 9). -/
theorem advance_of_step_hang {pc : Word12} (h : step s = .fault (.hang pc)) : advance s = s :=
  advance_of_step_fault h

/-- Settles O39: by either form `div` by zero hangs, after the reads; a machine that hangs is not halted. -/
theorem divByZeroHangs : Obligations.DivByZeroHangs := by
  refine ⟨fun _ => runDiv_of_eq_zero, fun s src r hr hv hi hm => ?_, fun s pc hs h n => ?_⟩
  · obtain ⟨hread, hdiv⟩ := (not_violates_reads_append (rs := [r])).1 hv
    rw [exec_mswt_of_names hr hread, hi]
    exact runDiv_of_eq_zero (s := s.afterReads [r]) hdiv (by rwa [State.afterReads_value])
  · rw [advanceBy_of_advance_eq (advance_of_step_hang h)]
    obtain ⟨hrun, _⟩ := hs
    refine ⟨rfl, ?_⟩
    rintro ⟨hhalted, _⟩
    simp [hrun] at hhalted

/-! ## The free values drawn -/

/-- An instruction draws a free value for each read of a register that holds none, and seven more for a `div`. -/
theorem freeCount_of_exec_eq_next (h : exec i s = .next t) :
    t.freeCount =
      s.freeCount + s.drawn (touches i s).reads + if (touches i s).writes = divWrites then 7 else 0 := by
  by_cases hdiv : (touches i s).writes = divWrites
  · obtain ⟨n, m, ret, rfl⟩ := (invokesDiv_of_writes (wellFormed_of_exec_eq_next h) hdiv).exec_eq_next h
    rw [if_pos hdiv, State.divided_freeCount, State.afterReads_freeCount]
  · rw [if_neg hdiv]
    cases exec_eq_next h with
    | wrote d v h hw => rw [h]; rfl
    | moved next h hw hc => rw [h]; rfl
    | loaded d o a h hw hn => rw [h]; rfl
    | stored o a v h hs hn => rw [h]; rfl
    | halted h hc => rw [h]; rfl
    | divided n m ret h hw hc => exact absurd hw hdiv

/-- A read of a register that holds no value is counted, wherever it stands among the reads. -/
theorem State.drawn_lt_drawn_append_cons (s : State) (before more : List Reg) (h : s.isWritten r = false) :
    s.drawn before < s.drawn (before ++ r :: more) := by
  have hcons : s.drawn (r :: more) = s.drawn more + 1 := List.countP_cons_of_pos (by simp [h])
  rw [State.drawn_append, hcons]
  omega

/-- Settles O40: the counter is beyond every read's place once the instruction has completed. -/
theorem registersReadBackOrGiveFreshValues : Obligations.RegistersReadBackOrGiveFreshValues := by
  refine ⟨fun s r v before => ?_, fun s q r v before hne hq => ?_, fun s before q hq => ⟨?_, fun more => ?_⟩,
    fun i s t before q more h hreads hq => ?_⟩
  · rw [State.value_of_isWritten _ _ _ (by simp [State.setReg_isWritten]), State.setReg_reg_same]
  · rw [State.value_of_isWritten _ _ _ (by simp [State.setReg_isWritten, hq]), State.setReg_reg_of_ne _ _ _ hne]
  · simp [State.value, hq]
  · exact s.drawn_lt_drawn_append_cons before more hq
  · have hlt := s.drawn_lt_drawn_append_cons before more hq
    rw [freeCount_of_exec_eq_next h, hreads]
    omega

/-! ## Reads of registers that hold no value -/

/-- The payload is reported for a well-formed instruction that no shadow forbids, and names a register it reads that
holds no value (R222, R223). -/
theorem unwrittenRead_eq_some {pc : Word12} (h : unwrittenRead i s = some (pc, r)) :
    i.wellFormed = true ∧ ¬ s.Violates (touches i s) ∧ pc = s.pc ∧ r ∈ (touches i s).reads ∧
      s.isWritten r = false := by
  simp only [unwrittenRead, Bool.and_eq_true, Option.isNone_iff_eq_none] at h
  split_ifs at h with hgo
  obtain ⟨hwf, hv⟩ := hgo
  obtain ⟨q, hq, he⟩ := Option.map_eq_some_iff.1 h
  cases he
  exact ⟨hwf, not_violates_of_violated_eq_none hv, rfl, List.mem_of_find?_eq_some hq,
    by simpa using List.find?_some hq⟩

/-- Where an instruction that completes has nothing to report, none of its reads draws a free value. -/
theorem drawn_eq_zero_of_unwrittenRead_eq_none (h : exec i s = .next t) (hnone : unwrittenRead i s = none) :
    s.drawn (touches i s).reads = 0 := by
  have hv := violated_eq_none_iff.2 (not_violates_of_exec_eq_next h)
  simp only [unwrittenRead, wellFormed_of_exec_eq_next h, hv, Option.isNone_none, Bool.and_self, if_true,
    Option.map_eq_none_iff, List.find?_eq_none] at hnone
  exact List.countP_eq_zero.2 hnone

theorem State.drawn_pos (h : r ∈ reads) (hr : s.isWritten r = false) : 0 < s.drawn reads :=
  List.countP_pos_iff.2 ⟨r, h, by simp [hr]⟩

/-! ## The end of a run -/

/-- Settles O54: neither step nor mark changes such a machine. -/
theorem haltedAndFaultedMachinesStay : Obligations.HaltedAndFaultedMachinesStay := by
  intro s n h
  refine advanceBy_of_advance_eq ?_ n
  rcases h with hhalted | hmark
  · exact advance_of_halted hhalted
  · obtain ⟨f, hf⟩ := Option.ne_none_iff_exists'.1 hmark
    exact advance_of_faultMark hf

/-- A virtual function sets the halt bit only if it is `hlt`, on a debug prototype (R194). -/
theorem runVirtual_halts {index : Word12} (hs : s.halted = false) (h : runVirtual index s = .next t)
    (ht : t.halted = true) : index = 0 ∧ s.params.debugPrototype = true := by
  rcases runVirtual_eq_next h with ⟨h0, hd, _⟩ | ⟨_, _, _, rfl⟩
  · exact ⟨h0, hd⟩
  · simp [hs] at ht

/-- No instruction but the two that invoke a virtual function changes the halt bit. -/
theorem halted_eq_of_not_virtual (hi : ∀ n, i ≠ .mswti n ∧ i ≠ .mswt n) (h : exec i s = .next t) :
    t.halted = s.halted := by
  cases exec_eq_next h with
  | wrote d v h hw => rw [h]; rfl
  | moved next h hw hc => rw [h]; rfl
  | loaded d o a h hw hn => rw [h]; rfl
  | stored o a v h hs hn => rw [h]; rfl
  | divided n m ret h hw hc => rw [h, State.divided_halted, State.afterReads_halted]
  | halted _ hc =>
    cases i with
    | mswti n => exact absurd rfl (hi n).1
    | mswt n => exact absurd rfl (hi n).2
    | jmpi => cases h; rfl
    | jmp =>
      obtain ⟨_, _, h⟩ := withReg_eq_next h
      obtain ⟨_, h⟩ := guarded_eq_next h
      cases h
      rfl
    | zjmpi | ljmpi | gjmpi => obtain ⟨_, rfl⟩ := jumpImm_eq_next h; rfl
    | zjmp | ljmp | gjmp => obtain ⟨_, rfl⟩ := jumpReg_eq_next h; rfl
    | _ => cases hc

/-- An instruction sets the halt bit only if it invokes `hlt`, on a debug prototype. -/
theorem exec_halts (hs : s.halted = false) (h : exec i s = .next t) (ht : t.halted = true) :
    s.params.debugPrototype = true ∧
      (i = .mswti 0 ∨ ∃ src r, i = .mswt src ∧ Names src r ∧ s.value [] r = 0) := by
  by_cases hi : ∀ n, i ≠ .mswti n ∧ i ≠ .mswt n
  · rw [halted_eq_of_not_virtual hi h, hs] at ht
    cases ht
  · simp only [not_forall, not_and_or, not_not] at hi
    obtain ⟨n, rfl | rfl⟩ := hi
    · obtain ⟨rfl, hd⟩ := runVirtual_halts hs h ht
      exact ⟨hd, .inl rfl⟩
    · obtain ⟨r, hr, h⟩ := exec_mswt_eq_next h
      obtain ⟨hzero, hd⟩ := runVirtual_halts (s := s.afterReads [r]) hs h ht
      exact ⟨hd, .inr ⟨n, r, rfl, hr, hzero⟩⟩

/-- Settles O53: the step executed the instruction at the pc, and that is `hlt`. -/
theorem onlyHltHalts : Obligations.OnlyHltHalts := by
  intro s t hs h ht
  rcases step_eq_next h with ⟨hhalted, _⟩ | ⟨i, hfetch, h⟩
  · simp [hs] at hhalted
  · obtain ⟨hd, hi⟩ := exec_halts hs h ht
    rw [fetch_eq] at hfetch
    split at hfetch
    · rename_i hdecode
      cases hfetch
      exact ⟨hd, i, hdecode, hi⟩
    · cases hfetch

end

end Sys2Proof.Machine

/-! PROOF. Identities between ALU instructions (spec 40_basic_alu section 9). -/

namespace Sys2Proof.Machine

section

variable {s t : State} {op : Word12 → Word12 → Word12} {imm src dst : Word12} {r d : Reg}

/-- An instruction of the template of R120 that completes has written the result. -/
theorem aluImm_eq_writeBack (hd : Names dst d) (h : aluImm op imm dst s = .next t) :
    t = (s.afterReads [d]).writeBack d (op (s.value [] d) imm) := by
  rw [aluImm, withReg_of_names hd] at h
  obtain ⟨_, h⟩ := guarded_eq_next h
  cases h
  rfl

theorem aluReg_eq_writeBack (hr : Names src r) (hd : Names dst d) (h : aluReg op src dst s = .next t) :
    t = (s.afterReads [r, d]).writeBack d (op (s.value [r] d) (s.value [] r)) := by
  rw [aluReg, withReg_of_names hr, withReg_of_names hd] at h
  obtain ⟨_, h⟩ := guarded_eq_next h
  cases h
  rfl

theorem execNot_eq_writeBack (hd : Names dst d) (h : exec (.not dst) s = .next t) :
    t = (s.afterReads [d]).writeBack d (notResult (s.value [] d)) := by
  rw [exec, execNot, withReg_of_names hd] at h
  obtain ⟨_, h⟩ := guarded_eq_next h
  cases h
  rfl

/-- The register just written reads as the value written. -/
@[simp] theorem State.writeBack_value_self (s : State) (d : Reg) (v : Word12) (before : List Reg) :
    (s.writeBack d v).value before d = v := by
  have hw : (s.writeBack d v).isWritten d = true := by
    simp [State.writeBack, State.advancePc, State.setReg_isWritten]
  rw [State.value_of_isWritten _ _ _ hw, State.writeBack_reg_self]

/-- A register that holds a value reads as it after another one is written. -/
theorem State.writeBack_value_of_ne (s : State) (v : Word12) (before : List Reg) (hne : r ≠ d)
    (hr : s.isWritten r = true) : (s.writeBack d v).value before r = s.reg r := by
  have hw : (s.writeBack d v).isWritten r = true := by
    simp [State.writeBack, State.advancePc, State.setReg_isWritten, hr]
  rw [State.value_of_isWritten _ _ _ hw]
  exact s.setReg_reg_of_ne d v hne

/-- The read of a register that holds a value draws nothing, so it does not show in what is read next. -/
theorem State.value_cons_of_isWritten (s : State) (before : List Reg) (q : Reg) (h : s.isWritten r = true) :
    s.value (r :: before) q = s.value before q := by
  have hdrawn : s.drawn (r :: before) = s.drawn before := List.countP_cons_of_neg (by simp [h])
  simp only [State.value, hdrawn]

/-! ## The results -/

theorem subResult_addResult (b a : Word12) : subResult (addResult b a) a = b := BitVec.add_sub_cancel b a

theorem addResult_subResult (b a : Word12) : addResult (subResult b a) a = b := BitVec.sub_add_cancel b a

theorem notResult_notResult (b : Word12) : notResult (notResult b) = b := by
  rw [notResult_eq_not, notResult_eq_not, BitVec.not_not]

/-- A left shift by less than 12 is a multiplication by a power of two. -/
theorem slResult_eq_mulResult (b : Word12) {n : Word12} (h : n.toNat < 12) :
    slResult b n = mulResult b (BitVec.ofNat 12 (2 ^ n.toNat)) := by
  apply BitVec.eq_of_toNat_eq
  have hpow : 2 ^ n.toNat < 2 ^ 12 := Nat.pow_lt_pow_right (by decide) h
  rw [toNat_slResult, toNat_mulResult, BitVec.toNat_ofNat, Nat.mod_eq_of_lt hpow]

/-- 0xFFF is -1, and the negative is the complement and 1. -/
theorem addResult_notResult_one (b : Word12) : addResult (notResult b) 1 = mulResult b 0xFFF := by
  have hneg : (0xFFF : Word12) = -1#12 := rfl
  rw [addResult, mulResult, notResult_eq_not, hneg, BitVec.mul_neg, BitVec.mul_one, BitVec.neg_eq_not_add]
  rfl

/-! ## The instructions -/

/-- Settles O27: each instruction's result, read by the next one from the register just written. -/
theorem aluIdentities : Obligations.AluIdentities := by
  refine ⟨fun s t u f n d hd ht hu => ?_, fun s t u m n r d hm hn hne hr ht hu => ?_, fun s f n hf => ?_,
    fun s t u n d hd ht hu => ?_, fun s t u v n d hd ht hu hv => ?_, fun s t m n r d hm hn he hw h => ?_⟩
  · obtain rfl := aluImm_eq_writeBack hd ht
    obtain rfl := aluImm_eq_writeBack hd hu
    rw [State.writeBack_reg_self, State.writeBack_value_self, subResult_addResult]
  · obtain rfl := aluReg_eq_writeBack hm hn ht
    obtain rfl := aluReg_eq_writeBack hm hn hu
    have hr' : (s.afterReads [r, d]).isWritten r = true := hr
    rw [State.writeBack_reg_self, State.writeBack_value_self, State.writeBack_value_of_ne _ _ _ hne hr',
      State.afterReads_reg, s.value_of_isWritten r _ hr, addResult_subResult, s.value_cons_of_isWritten _ _ hr]
  · simp only [exec, execSli, execMuli, aluImm, slResult_eq_mulResult _ hf]
  · obtain rfl := execNot_eq_writeBack hd ht
    obtain rfl := execNot_eq_writeBack hd hu
    rw [State.writeBack_reg_self, State.writeBack_value_self, notResult_notResult]
  · obtain rfl := aluImm_eq_writeBack hd ht
    obtain rfl := execNot_eq_writeBack hd hu
    obtain rfl := aluImm_eq_writeBack hd hv
    rw [State.writeBack_reg_self, State.writeBack_reg_self, State.writeBack_value_self, addResult_notResult_one]
  · subst he
    rcases h with h | h
    · obtain rfl := aluReg_eq_writeBack hm hn h
      rw [State.writeBack_reg_self, s.value_of_isWritten _ _ hw, s.value_of_isWritten _ _ hw]
      exact BitVec.and_self
    · obtain rfl := aluReg_eq_writeBack hm hn h
      rw [State.writeBack_reg_self, s.value_of_isWritten _ _ hw, s.value_of_isWritten _ _ hw]
      exact BitVec.or_self

end

end Sys2Proof.Machine

/-! PROOF. Registers that have no influence on an instruction: those it does not read (spec 10_state R23), and the
field of one that holds no value (R37). -/

namespace Sys2Proof.Machine

/-! ## A register's field and whether it holds a value, put to anything -/

/-- Put the field of `x[r]`, and whether it holds a value, to anything. -/
def State.poke (s : State) (r : Reg) (v : Word12) (b : Bool) : State :=
  { s with regs := s.regs.set r v, written := s.written.set r b }

/-- Poking `x[r]` does not show in the reads of `reads`: it is none of them, or it holds no value before and after. -/
def State.Unseen (s : State) (r : Reg) (b : Bool) (reads : List Reg) : Prop :=
  r ∈ reads → s.isWritten r = false ∧ b = false

/-- What an instruction that writes `writes` answers on the poked state: the poke is still there in the next state,
unless the instruction has written the register. -/
def afterPoke (r : Reg) (v : Word12) (b : Bool) (writes : List Reg) : Result → Result
  | .next t => .next (if r ∈ writes then t else t.poke r v b)
  | .fault f => .fault f
  | .refused x => .refused x

section

variable {s : State} {r : Reg} {v : Word12} {b : Bool} {reads writes : List Reg}

theorem State.setReg_eq_poke (s : State) (r : Reg) (v : Word12) : s.setReg r v = s.poke r v true := rfl

/-- Other data in the field of a register that holds no value is a poke. -/
theorem State.set_regs_eq_poke (h : s.isWritten r = false) : { s with regs := s.regs.set r v } = s.poke r v false := by
  have hw : s.written.set r false = s.written := by
    rw [← h]
    exact Vector.set_getElem_self _
  rw [State.poke, hw]

theorem State.poke_reg_of_ne {q : Reg} (h : q ≠ r) : (s.poke r v b).reg q = s.reg q := s.setReg_reg_of_ne r v h

theorem State.poke_isWritten (q : Reg) : (s.poke r v b).isWritten q = if q = r then b else s.isWritten q := by
  simp only [State.isWritten, State.poke, Fin.getElem_fin]
  rw [Vector.getElem_set]
  simp only [Fin.ext_iff, eq_comm]

/-! ## Reads -/

theorem State.Unseen.mono {reads' : List Reg} (h : s.Unseen r b reads) (hsub : reads' ⊆ reads) :
    s.Unseen r b reads' :=
  fun hr => h (hsub hr)

/-- Whether a register that is read holds a value does not change. -/
theorem State.Unseen.isWritten (h : s.Unseen r b reads) {q : Reg} (hq : q ∈ reads) :
    (s.poke r v b).isWritten q = s.isWritten q := by
  rw [State.poke_isWritten]
  split_ifs with he
  · subst he
    obtain ⟨hs, hb⟩ := h hq
    rw [hs, hb]
  · rfl

theorem State.Unseen.drawn (h : s.Unseen r b reads) : (s.poke r v b).drawn reads = s.drawn reads :=
  List.countP_congr fun q hq => by rw [h.isWritten hq]

/-- Nor does what a read gives. -/
theorem State.Unseen.value (h : s.Unseen r b reads) {before : List Reg} {q : Reg} (hsub : q :: before ⊆ reads) :
    (s.poke r v b).value before q = s.value before q := by
  obtain ⟨hq, hbefore⟩ := List.cons_subset.1 hsub
  unfold State.value
  rw [h.isWritten hq, (h.mono hbefore).drawn]
  split_ifs with hw
  · refine State.poke_reg_of_ne ?_
    rintro rfl
    simp [(h hq).1] at hw
  · rfl

theorem State.Unseen.afterReads (h : s.Unseen r b reads) :
    (s.poke r v b).afterReads reads = (s.afterReads reads).poke r v b := by
  rw [State.afterReads, h.drawn]
  rfl

/-! ## Effects -/

theorem State.setReg_poke (s : State) (d : Reg) (w : Word12) :
    (s.poke r v b).setReg d w = if r = d then s.setReg d w else (s.setReg d w).poke r v b := by
  split_ifs with h
  · subst h
    simp [State.setReg, State.poke]
  · have hne : (r : Nat) ≠ d := fun he => h (Fin.ext he)
    simp [State.setReg, State.poke, Vector.set_comm _ _ hne]

theorem State.drawReg_poke (s : State) (d : Reg) :
    (s.poke r v b).drawReg d = if r = d then s.drawReg d else (s.drawReg d).poke r v b := by
  split_ifs with h
  · subst h
    simp [State.drawReg, State.poke]
  · have hne : (r : Nat) ≠ d := fun he => h (Fin.ext he)
    simp [State.drawReg, State.poke, Vector.set_comm _ _ hne]

theorem State.drawRegs_poke (rs : List Reg) (s : State) :
    (s.poke r v b).drawRegs rs = if r ∈ rs then s.drawRegs rs else (s.drawRegs rs).poke r v b := by
  induction rs generalizing s with
  | nil => rfl
  | cons d rs ih =>
    rw [State.drawRegs, State.drawReg_poke]
    by_cases hd : r = d
    · simp [hd, State.drawRegs]
    · simp [hd, ih, State.drawRegs]

theorem State.writeBack_poke (s : State) (d : Reg) (w : Word12) :
    (s.poke r v b).writeBack d w = if r ∈ [d] then s.writeBack d w else (s.writeBack d w).poke r v b := by
  simp only [State.writeBack, State.setReg_poke, List.mem_singleton]
  split_ifs <;> rfl

theorem State.loaded_poke (s : State) (d : Reg) (o : Option Reg) (a : Word12) :
    (s.poke r v b).loaded d o a = if r ∈ [d] then s.loaded d o a else (s.loaded d o a).poke r v b := by
  have hread : (s.poke r v b).memRead a = s.memRead a := rfl
  simp only [State.loaded, hread, State.setReg_poke, List.mem_singleton]
  split_ifs <;> rfl

theorem State.divided_poke (s : State) (n m ret : Word12) :
    (s.poke r v b).divided n m ret =
      if r ∈ divWrites then s.divided n m ret else (s.divided n m ret).poke r v b := by
  have hmem : r ∈ divWrites ↔ r = 0 ∨ r = 2 ∨ r ∈ Config.divClobbers := by
    simp only [← divUses_writes, divUses, List.mem_cons]
  rw [State.divided, State.drawRegs_poke]
  by_cases hc : r ∈ Config.divClobbers
  · rw [if_pos hc, if_pos (hmem.2 (.inr (.inr hc))), State.divided]
  rw [if_neg hc, State.setReg_poke]
  by_cases h2 : r = 2
  · rw [if_pos h2, if_pos (hmem.2 (.inr (.inl h2))), State.divided]
  rw [if_neg h2, State.setReg_poke]
  by_cases h0 : r = 0
  · rw [if_pos h0, if_pos (hmem.2 (.inl h0)), State.divided]
  · rw [if_neg h0, if_neg (by simp [hmem, h0, h2, hc])]
    rfl

/-! ## The templates -/

theorem withReg_poke {n : Word12} {go go' : Reg → Result}
    (h : go' (regIn n) = afterPoke r v b writes (go (regIn n))) :
    (s.poke r v b).withReg n go' = afterPoke r v b writes (s.withReg n go) := by
  cases hn : namesReg n
  · rw [withReg_of_not_namesReg hn, withReg_of_not_namesReg hn]
    rfl
  · rw [withReg_of_names (names_regIn hn), withReg_of_names (names_regIn hn), h]

theorem guarded_poke {u : Uses} {go go' : State → Result} (hu : s.Unseen r b u.reads)
    (h : go' ((s.afterReads u.reads).poke r v b) = afterPoke r v b writes (go (s.afterReads u.reads))) :
    (s.poke r v b).guarded u go' = afterPoke r v b writes (s.guarded u go) := by
  have hviolated : (s.poke r v b).violated u = s.violated u := rfl
  simp only [State.guarded, hviolated, hu.afterReads]
  split
  · rfl
  · exact h

/-- The shadow check, then an effect that does not fault. -/
theorem guarded_next_poke {u : Uses} {effect effect' : State → State} (hu : s.Unseen r b u.reads)
    (h : effect' ((s.afterReads u.reads).poke r v b) =
      if r ∈ writes then effect (s.afterReads u.reads) else (effect (s.afterReads u.reads)).poke r v b) :
    (s.poke r v b).guarded u (fun s' => .next (effect' s')) =
      afterPoke r v b writes (s.guarded u fun s' => .next (effect s')) :=
  guarded_poke hu (by rw [h]; rfl)

theorem aluImm_poke {op : Word12 → Word12 → Word12} {imm dst : Word12} (hu : s.Unseen r b [regIn dst]) :
    aluImm op imm dst (s.poke r v b) = afterPoke r v b [regIn dst] (aluImm op imm dst s) := by
  refine withReg_poke ?_
  rw [hu.value (List.Subset.refl _)]
  exact guarded_next_poke hu (State.writeBack_poke _ _ _)

theorem aluReg_poke {op : Word12 → Word12 → Word12} {src dst : Word12}
    (hu : s.Unseen r b [regIn src, regIn dst]) :
    aluReg op src dst (s.poke r v b) = afterPoke r v b [regIn dst] (aluReg op src dst s) := by
  refine withReg_poke (withReg_poke ?_)
  rw [hu.value (q := regIn src) (by simp), hu.value (q := regIn dst) (by simp)]
  exact guarded_next_poke hu (State.writeBack_poke _ _ _)

theorem jumpImm_poke {c : Condition} {im : List Reg} {target tested : Word12}
    (hu : s.Unseen r b (regIn tested :: im)) (hc : c (s.poke r v b) [] (regIn tested) = c s [] (regIn tested)) :
    jumpImm c im target tested (s.poke r v b) = afterPoke r v b [] (jumpImm c im target tested s) := by
  refine withReg_poke ?_
  rw [hc]
  exact guarded_next_poke hu rfl

theorem jumpReg_poke {c : Condition} {im : List Reg} {src tested : Word12}
    (hu : s.Unseen r b (regIn src :: regIn tested :: im))
    (hc : c (s.poke r v b) [regIn src] (regIn tested) = c s [regIn src] (regIn tested)) :
    jumpReg c im src tested (s.poke r v b) = afterPoke r v b [] (jumpReg c im src tested s) := by
  refine withReg_poke (withReg_poke ?_)
  rw [hc, hu.value (q := regIn src) (by simp)]
  exact guarded_next_poke hu rfl

/-! ## The conditions -/

theorem testsZero_poke {before : List Reg} {t : Reg} (hu : s.Unseen r b reads) (hsub : t :: before ⊆ reads) :
    testsZero (s.poke r v b) before t = testsZero s before t := by
  rw [testsZero, hu.value hsub, testsZero]

theorem testsLess_poke {before : List Reg} {t : Reg} (hu : s.Unseen r b reads)
    (hsub : cmpReg :: t :: before ⊆ reads) : testsLess (s.poke r v b) before t = testsLess s before t := by
  obtain ⟨hcmp, ht⟩ := List.cons_subset.1 hsub
  rw [testsLess, hu.value ht, hu.value (by simpa [and_comm, hcmp] using ht), testsLess]

theorem testsGreater_poke {before : List Reg} {t : Reg} (hu : s.Unseen r b reads)
    (hsub : cmpReg :: t :: before ⊆ reads) : testsGreater (s.poke r v b) before t = testsGreater s before t := by
  obtain ⟨hcmp, ht⟩ := List.cons_subset.1 hsub
  rw [testsGreater, hu.value ht, hu.value (by simpa [and_comm, hcmp] using ht), testsGreater]

/-! ## The virtual functions -/

theorem runHlt_poke : runHlt (s.poke r v b) = afterPoke r v b [] (runHlt s) := by
  have hparams : (s.poke r v b).params = s.params := rfl
  rw [runHlt, hparams, runHlt]
  split_ifs <;> rfl

theorem runDiv_poke (hu : s.Unseen r b divReads) : runDiv (s.poke r v b) = afterPoke r v b divWrites (runDiv s) := by
  unfold runDiv
  rw [hu.value (q := 0) (by decide), hu.value (q := 1) (by decide), hu.value (q := retReg) (by decide)]
  refine guarded_poke (u := divUses) hu ?_
  split_ifs
  · rfl
  · exact congrArg Host.Outcome.next (State.divided_poke _ _ _ _)

/-- The poked state after the reads `rs`, which the poke does not show in, runs a virtual function as that state
does. -/
theorem runVirtual_poke {index : Word12} {rs : List Reg} (hu : s.Unseen r b (virtualTouches index rs).reads) :
    runVirtual index ((s.afterReads rs).poke r v b) =
      afterPoke r v b (virtualTouches index rs).writes (runVirtual index (s.afterReads rs)) := by
  by_cases h1 : index = 1
  · subst h1
    have hdiv : (s.afterReads rs).Unseen r b divReads := fun hr => hu (List.mem_append_right rs hr)
    exact runDiv_poke hdiv
  · rw [virtualTouches_of_ne_one rs h1]
    by_cases h0 : index = 0
    · subst h0
      exact runHlt_poke
    · have h2 : 2 ≤ index.toNat := by bv_omega
      rw [runVirtual_of_two_le _ h2, runVirtual_of_two_le _ h2]
      rfl

theorem subset_virtualTouches_reads (index : Word12) (rs : List Reg) : rs ⊆ (virtualTouches index rs).reads := by
  unfold virtualTouches
  split_ifs
  · exact List.subset_append_left rs divReads
  · exact List.Subset.refl rs

theorem execMswt_poke {src : Word12} (hu : s.Unseen r b (touches (.mswt src) s).reads) :
    execMswt src (s.poke r v b) = afterPoke r v b (touches (.mswt src) s).writes (execMswt src s) := by
  have hread : s.Unseen r b [regIn src] := hu.mono (subset_virtualTouches_reads _ _)
  refine withReg_poke ?_
  rw [hread.value (List.Subset.refl _)]
  exact guarded_poke (u := ⟨[regIn src], [], none⟩) hread (runVirtual_poke hu)

/-! ## Every instruction -/

/-- A poke that does not show in an instruction's reads changes nothing of what the instruction does. -/
theorem exec_poke {i : Instr} (hu : s.Unseen r b (touches i s).reads) :
    exec i (s.poke r v b) = afterPoke r v b (touches i s).writes (exec i s) := by
  cases i with
  | nop | jmpi => rfl
  | seti => exact withReg_poke (guarded_next_poke hu (State.writeBack_poke _ _ _))
  | set src dst =>
    refine withReg_poke (withReg_poke ?_)
    rw [hu.value (List.Subset.refl _)]
    exact guarded_next_poke hu (State.writeBack_poke _ _ _)
  | not dst =>
    refine withReg_poke ?_
    rw [hu.value (List.Subset.refl _)]
    exact guarded_next_poke hu (State.writeBack_poke _ _ _)
  | addi | muli | subi | sli | sri | andi | ori => exact aluImm_poke hu
  | add | mul | sub | sl | sr | and | or => exact aluReg_poke hu
  | mswti index => exact runVirtual_poke (rs := []) hu
  | mswt src => exact execMswt_poke hu
  | jmp src =>
    refine withReg_poke ?_
    rw [hu.value (List.Subset.refl _)]
    exact guarded_next_poke hu rfl
  | zjmpi => exact jumpImm_poke hu (testsZero_poke hu (by simp [touches]))
  | zjmp => exact jumpReg_poke hu (testsZero_poke hu (by simp [touches]))
  | ljmpi => exact jumpImm_poke hu (testsLess_poke hu (by simp [touches, cmpReg]))
  | ljmp => exact jumpReg_poke hu (testsLess_poke hu (by simp [touches, cmpReg]))
  | gjmpi => exact jumpImm_poke hu (testsGreater_poke hu (by simp [touches, cmpReg]))
  | gjmp => exact jumpReg_poke hu (testsGreater_poke hu (by simp [touches, cmpReg]))
  | loadi => exact withReg_poke (guarded_next_poke hu (State.loaded_poke _ _ _ _))
  | load src dst =>
    refine withReg_poke (withReg_poke ?_)
    rw [hu.value (List.Subset.refl _)]
    exact guarded_next_poke hu (State.loaded_poke _ _ _ _)
  | storei value addr =>
    exact guarded_next_poke (effect := (·.stored none addr value)) (effect' := (·.stored none addr value)) hu rfl
  | store src addr =>
    refine withReg_poke ?_
    rw [hu.value (List.Subset.refl _)]
    exact guarded_next_poke hu rfl

/-- Settles O51: another value in a register that is not read is a poke. -/
theorem instructionsReadOnlyListedRegisters : Obligations.InstructionsReadOnlyListedRegisters := by
  intro i s r v _ hr
  rw [State.setReg_eq_poke, exec_poke fun hmem => absurd hmem hr]
  cases exec i s <;> rfl

/-- Settles O41: the counter advances by the reads that draw, which are those the report is about; other data in the
field of a register that holds no value is a poke, and such a register holds none afterwards unless it is written. -/
theorem unwrittenReadsStopNothing : Obligations.UnwrittenReadsStopNothing := by
  refine ⟨fun i s pc r h => ?_, fun i s t h hnone => ?_, fun i s r v h => ?_⟩
  · obtain ⟨hwf, hv, hpc, hmem, hr⟩ := unwrittenRead_eq_some h
    refine ⟨hpc, hmem, hr, ?_⟩
    rcases wellFormedInstructionsComplete i s hwf hv with ⟨t, he⟩ | ⟨index, _, ⟨rfl, _⟩ | ⟨src, rfl, _⟩, _⟩
    · have hpos := State.drawn_pos hmem hr
      have hcount := freeCount_of_exec_eq_next he
      exact .inr ⟨t, he, by omega⟩
    · exact .inl ⟨index, .inl rfl⟩
    · exact .inl ⟨src, .inr rfl⟩
  · rw [freeCount_of_exec_eq_next h, drawn_eq_zero_of_unwrittenRead_eq_none h hnone, Nat.add_zero]
  · rw [State.set_regs_eq_poke h, exec_poke fun _ => ⟨h, rfl⟩]
    cases he : exec i s with
    | fault | refused => rfl
    | next t =>
      by_cases hr : r ∈ (touches i s).writes
      · simp [afterPoke, hr]
      · obtain ⟨_, hw⟩ := instructionsWriteOnlyListedRegisters i s t he r hr
        simp [afterPoke, hr, State.set_regs_eq_poke (hw.trans h)]

end

end Sys2Proof.Machine
